-- ==== Sys2Proof/Word.lean ====
section
/-! DEFINITION. The Word of the core: a signed 64-bit two's-complement integer (spec/00_scope.md R6, R7). -/

namespace Sys2Proof

/-- A Word: 64 bits, read as the signed integer `toInt` in [-2^63, 2^63 - 1] (R6, R7). The ISA has only the signed
reading (40_alu.md R100). -/
abbrev Word := BitVec 64

end Sys2Proof
end

