-- ==== Sys2Proof/Syntax.lean ====
section
/-! DEFINITION. The instruction set as syntax: one constructor per row of spec/opcode_table.json (30_encoding.md R69). -/

namespace Sys2Proof

/-- The addressing modes, digits 0, 1 and 2 (R64). -/
inductive Mode where
  | position
  | immediate
  | relative
  deriving DecidableEq, Repr

/-- The parameters of an instruction: parameter k is the Word at pc + k, for k = 1, 2, 3 (00_scope.md R14). -/
inductive Param where
  | p1
  | p2
  | p3
  deriving DecidableEq, Repr

/-- A decoded instruction: the operation, with the modes of parameters 1, 2 and 3 as decode returns them (R66). Every
opcode carries all three modes; those of parameters it does not use are validated and then ignored (R67). The parameter
words are not part of the decoded instruction: the meaning reads them at pc + k when it resolves the operand (R71, R72, R74). -/
inductive Instr where
  | add (m1 m2 m3 : Mode)
  | multiply (m1 m2 m3 : Mode)
  | input (m1 m2 m3 : Mode)
  | output (m1 m2 m3 : Mode)
  | jumpIfTrue (m1 m2 m3 : Mode)
  | jumpIfFalse (m1 m2 m3 : Mode)
  | lessThan (m1 m2 m3 : Mode)
  | equals (m1 m2 m3 : Mode)
  | relativeBaseOffset (m1 m2 m3 : Mode)
  | halt (m1 m2 m3 : Mode)
  deriving DecidableEq, Repr

end Sys2Proof
end

