-- ==== Sys2Proof/WellFormed.lean ====
section
/-! DEFINITION. Which instructions are well-formed: the encoding clause of each instruction rule allows Immediate for
every parameter but a write parameter ("m3 in {0, 2}", spec/40_alu.md R102 to R105; "m1 in {0, 2}", 41_io.md R120).
An ill-formed instruction still decodes and runs: its meaning raises ImmediateWriteTarget (30_encoding.md R77). -/

namespace Sys2Proof

/-- The write parameter of an instruction with its mode, where it has one (R69). -/
def Instr.writeParam : Instr → Option (Param × Mode)
  | .add _ _ m3 => some (.p3, m3)
  | .multiply _ _ m3 => some (.p3, m3)
  | .input m1 _ _ => some (.p1, m1)
  | .output _ _ _ => none
  | .jumpIfTrue _ _ _ => none
  | .jumpIfFalse _ _ _ => none
  | .lessThan _ _ m3 => some (.p3, m3)
  | .equals _ _ m3 => some (.p3, m3)
  | .relativeBaseOffset _ _ _ => none
  | .halt _ _ _ => none

/-- The write parameter is not Immediate. -/
def Instr.wellFormed (i : Instr) : Bool :=
  match i.writeParam with
  | some (_, .immediate) => false
  | _ => true

end Sys2Proof
end

