-- ==== Sys2Proof/Decode.lean ====
section
/-! DEFINITION. The instruction decoder and the encoder (spec/30_encoding.md R60 to R70, R79). -/

namespace Sys2Proof

/-- `digit_k(w)`: the decimal digit of weight 10^k (00_scope.md R8). -/
def digit (k w : Nat) : Nat := w / 10 ^ k % 10

/-- The index k of parameter k. -/
def Param.index : Param → Nat
  | .p1 => 1
  | .p2 => 2
  | .p3 => 3

/-- The mode a digit stands for; 3 to 9 stand for none (R64). -/
def Mode.ofDigit : Nat → Option Mode
  | 0 => some .position
  | 1 => some .immediate
  | 2 => some .relative
  | _ => none

/-- The digit of a mode (R64). -/
def Mode.toDigit : Mode → Nat
  | .position => 0
  | .immediate => 1
  | .relative => 2

/-- The operation of an opcode, still without its modes: the Operation table of R69. Every other opcode is unknown (R63). -/
def operationOf : Nat → Option (Mode → Mode → Mode → Instr)
  | 1 => some .add
  | 2 => some .multiply
  | 3 => some .input
  | 4 => some .output
  | 5 => some .jumpIfTrue
  | 6 => some .jumpIfFalse
  | 7 => some .lessThan
  | 8 => some .equals
  | 9 => some .relativeBaseOffset
  | 99 => some .halt
  | _ => none

/-- Why the decoder rejects an instruction word: the names of R66. The faulting pc and the word are added where the
fault is raised. -/
inductive DecodeError where
  /-- The word is negative, or its low two digits name no operation (R62, R63). -/
  | unknownOpcode
  /-- The mode digit of parameter k is 3 to 9 (R64). -/
  | unknownMode (k : Param)
  deriving DecidableEq, Repr

/-- The mode of parameter k of a non-negative instruction word: digit k + 1 (R61, R64). -/
def modeOf (k : Param) (w : Nat) : Except DecodeError Mode :=
  match Mode.ofDigit (digit (k.index + 1) w) with
  | some m => .ok m
  | none => .error (.unknownMode k)

/-- `decode(w)` (R66): the sign first, then the opcode, then the modes in parameter order, all three for every opcode
(R67). Digits of weight 10^5 and above are not examined (R65). -/
def decode (w : Word) : Except DecodeError Instr :=
  if w.toInt < 0 then .error .unknownOpcode
  else match operationOf (w.toNat % 100) with
    | none => .error .unknownOpcode
    | some operation => do
      let m1 ← modeOf .p1 w.toNat
      let m2 ← modeOf .p2 w.toNat
      let m3 ← modeOf .p3 w.toNat
      return operation m1 m2 m3

/-- The canonical instruction word of an opcode and three modes (R61, R79). -/
def wordOf (opcode : Nat) (m1 m2 m3 : Mode) : Word :=
  BitVec.ofNat 64 (opcode + 100 * m1.toDigit + 1000 * m2.toDigit + 10000 * m3.toDigit)

/-- The canonical instruction word of an instruction (R69, R79). -/
def encode : Instr → Word
  | .add m1 m2 m3 => wordOf 1 m1 m2 m3
  | .multiply m1 m2 m3 => wordOf 2 m1 m2 m3
  | .input m1 m2 m3 => wordOf 3 m1 m2 m3
  | .output m1 m2 m3 => wordOf 4 m1 m2 m3
  | .jumpIfTrue m1 m2 m3 => wordOf 5 m1 m2 m3
  | .jumpIfFalse m1 m2 m3 => wordOf 6 m1 m2 m3
  | .lessThan m1 m2 m3 => wordOf 7 m1 m2 m3
  | .equals m1 m2 m3 => wordOf 8 m1 m2 m3
  | .relativeBaseOffset m1 m2 m3 => wordOf 9 m1 m2 m3
  | .halt m1 m2 m3 => wordOf 99 m1 m2 m3

/-- How many parameter words follow the instruction word (R69, R78): told by the operation alone. -/
def Instr.paramCount : Instr → Nat
  | .add _ _ _ => 3
  | .multiply _ _ _ => 3
  | .input _ _ _ => 1
  | .output _ _ _ => 1
  | .jumpIfTrue _ _ _ => 2
  | .jumpIfFalse _ _ _ => 2
  | .lessThan _ _ _ => 3
  | .equals _ _ _ => 3
  | .relativeBaseOffset _ _ _ => 1
  | .halt _ _ _ => 0

/-- The words of an instruction with its parameter words: the encoding function of R79. Parameter words the caller does
not give are 0, and words beyond the instruction's own are dropped. R84's example gives a Position write operand the mode
digit 2 (21201 for 1201), which R61 and R79 give to Relative: R61 and R79 are followed (DESIGN CHOICE,
notes/assumptions/10.md, safe). -/
def encodeWords (i : Instr) (params : List Word) : List Word :=
  encode i :: (params ++ List.replicate 3 0).take i.paramCount

/-- Word number j of an instruction given as one number, bit 0 the least significant bit of the first word. -/
def tableWord (nbits w j : Nat) : Word := BitVec.ofNat 64 (w % 2 ^ nbits / 2 ^ (64 * j))

/-- The instruction the decoder reads from the instruction whose first `nbits` bits are `w` and whose later bits are 0.
The decoder looks at the first word alone (R66); the later words are its parameter words. -/
def decodeTableWord (nbits w : Nat) : Option Instr := (decode (tableWord nbits w 0)).toOption

end Sys2Proof
end

