-- ==== Sys2Proof/Config.lean ====
section
/-! DEFINITION. The parameters of the core (spec/00_scope.md R6). -/

namespace Sys2Proof

/-- MAX_ADDR = 2^63 - 1, the highest valid address (R6; 92_eei_decisions.md D2). -/
def maxAddr : Nat := 9223372036854775807

/-- The OPEN parameters of R6 and D16: `none` is unbounded, the default. A state carries them, so that every statement
about a state holds for every choice of them (DESIGN CHOICE, notes/assumptions/2.md, safe). -/
structure Config where
  /-- EXT_CAPACITY: how many extension addresses may hold a written value. -/
  extCapacity : Option Nat
  /-- IN_CAPACITY: the greatest length of the input sequence. -/
  inCapacity : Option Nat
  /-- OUT_CAPACITY: the greatest length of the output sequence. -/
  outCapacity : Option Nat
  deriving DecidableEq, Repr

/-- The default of R6: all three capacities unbounded. -/
def Config.unbounded : Config := ⟨none, none, none⟩

end Sys2Proof
end

