-- ==== Sys2Proof/Machine/State.lean ====
section
/-! DEFINITION. The state of the core as plain data: every item of spec/10_state.md R20, and the capacities. -/

namespace Sys2Proof.Machine

/-- RS, the run-state register (R26). -/
inductive RunState where
  /-- Instructions execute while a Run command is in progress. -/
  | running
  /-- A blocking Input was reached; only PushInput leaves this state. -/
  | waitingForInput
  /-- Terminal; only Construct replaces it. -/
  | halted
  deriving DecidableEq, Repr

/-- Which address computation an InvalidAddress fault names (60_exceptions.md R205). -/
inductive AddrKind where
  | operandFetch
  | read
  | write
  | jump
  | advance
  deriving DecidableEq, Repr

/-- Which store a CapacityExceeded fault names (60_exceptions.md R208). -/
inductive Store where
  /-- EXT, the extension. -/
  | extension
  /-- OUT, the output sequence. -/
  | outputQueue
  /-- IN, the input sequence. -/
  | inputQueue
  deriving DecidableEq, Repr

/-- What the FAULT register records: a cause with exactly the fields 60_exceptions.md R201 lists for it. Taking such a
fault is a step to a NEXT state (R210), never a stop of the model. -/
inductive FaultInfo where
  /-- Cause 1 (R202). -/
  | unknownOpcode (ip : Nat) (word : Word)
  /-- Cause 2 (R203). -/
  | unknownMode (ip : Nat) (word : Word) (param : Param)
  /-- Cause 3 (R204). -/
  | immediateWriteTarget (ip : Nat) (param : Param)
  /-- Cause 4 (R205); `addr` is the exact integer, `param` is absent for an advance. -/
  | invalidAddress (ip : Nat) (param : Option Param) (addr : Int) (kind : AddrKind)
  /-- Cause 5 (R206); the old relative base and the offset. -/
  | relativeBaseOverflow (ip : Nat) (rb : Word) (k : Word)
  /-- Cause 6 (R207). -/
  | runWhileHalted
  /-- Cause 7 (R208); `ip` is absent when a command raises it. -/
  | capacityExceeded (ip : Option Nat) (which : Store)
  deriving DecidableEq, Repr

/-- Memory (R29): PRIM, the primary segment, whose length is N, and EXT, the extension, a finite map from addresses to
Words kept as a list with strictly rising addresses. An extension address that is not listed is absent (20_memory.md
R42) and reads 0 (R43); a listed entry may hold 0, because R44 counts entries, not values (notes/assumptions/1.md). -/
structure Memory where
  prim : List Word
  ext : List (Nat × Word)
  deriving DecidableEq, Repr

/-- The architectural state (R20) and, beside it, the capacities. -/
structure State where
  /-- IP, the instruction pointer (R22). -/
  pc : Nat
  /-- RB, the relative base register (R23). -/
  rb : Word
  /-- RS, the run-state register (R26). -/
  rs : RunState
  /-- FAULT, the fault register (R27). -/
  fault : Option FaultInfo
  /-- BUSY, set while a Run command executes instructions (R28). -/
  busy : Bool
  /-- N, PRIM and EXT (R29). -/
  mem : Memory
  /-- IN, the input sequence (R30). -/
  inQ : List Word
  /-- IN_CUR, the input read cursor (R30). -/
  inCur : Nat
  /-- OUT, the output sequence (R31). -/
  outQ : List Word
  /-- OUT_CUR, the output read cursor (R31). -/
  outCur : Nat
  /-- The OPEN parameters (00_scope.md R6): not architectural state, constant throughout (notes/assumptions/2.md). -/
  config : Config
  deriving DecidableEq, Repr

/-- Why the model stops. No fault of the spec is here: those are NEXT states with FAULT written. -/
inductive Fault where
  /-- Raised by `step` alone, on a fetch at a pc above MAX_ADDR. The pc is a plain Nat, so a state with such a pc can be
  written down, but no reachable state has one (R22, R34), and the spec gives no meaning to it. Safe. -/
  | pcOutsideMemory
  deriving DecidableEq, Repr

/-- Why the model gives an instruction no meaning. -/
inductive Refusal where
  /-- Raised by an arm of `exec` whose instruction has no meaning yet; no arm does. Safe. -/
  | notModelled (mnemonic : String)
  deriving DecidableEq, Repr

/-- The state right after Construct of the empty sequence with the default capacities (70_reset_and_hazards.md R250;
00_scope.md R6 allows N = 0). A program comes in by Construct (`constructed` in Machine/Commands.lean). -/
def State.reset : State where
  pc := 0
  rb := 0
  rs := .running
  fault := none
  busy := false
  mem := ⟨[], []⟩
  inQ := []
  inCur := 0
  outQ := []
  outCur := 0
  config := Config.unbounded

end Sys2Proof.Machine
end

