-- ==== Sys2Proof/Machine/Ops.lean ====
section
/-! DEFINITION. The named operations over memory and registers, and taking a fault (spec/20_memory.md, 30_encoding.md
R82, 60_exceptions.md R210). -/

namespace Sys2Proof.Machine

/-- The outcome type of every meaning. -/
abbrev Outcome := Host.Outcome State Fault Refusal

/-! ## Words and addresses -/

/-- `wrap64(x)`: the Word with the same low 64 bits (00_scope.md R7). -/
def wrap64 (x : Int) : Word := BitVec.ofInt 64 x

/-- `in_word(x)`: x is the value of a Word (R7). -/
def inWord (x : Int) : Bool := decide (-2 ^ 63 ≤ x) && decide (x ≤ 2 ^ 63 - 1)

/-- `valid(a)`: the integer a is an address (20_memory.md R41). -/
def validAddr (a : Int) : Bool := decide (0 ≤ a) && decide (a ≤ maxAddr)

/-! ## Memory -/

/-- The entry of an extension map, absent until first written (R42). -/
def lookupEntry (a : Nat) : List (Nat × Word) → Option Word
  | [] => none
  | (b, w) :: rest => if a = b then some w else lookupEntry a rest

/-- The extension map with the entry of one address written, in its place in the rising order. -/
def insertEntry (a : Nat) (v : Word) : List (Nat × Word) → List (Nat × Word)
  | [] => [(a, v)]
  | (b, w) :: rest =>
    if a < b then (a, v) :: (b, w) :: rest
    else if a = b then (a, v) :: rest
    else (b, w) :: insertEntry a v rest

/-- N, the length of the primary segment (10_state.md R29). -/
def Memory.size (m : Memory) : Nat := m.prim.length

/-- `MemRead(a, 1)` (R43). -/
def Memory.read (m : Memory) (a : Nat) : Word :=
  if a < m.size then m.prim.getD a 0 else (lookupEntry a m.ext).getD 0

/-- `MemWrite(a, 1, v)` (R44). -/
def Memory.write (m : Memory) (a : Nat) (v : Word) : Memory :=
  if a < m.size then { m with prim := m.prim.set a v } else { m with ext := insertEntry a v m.ext }

/-- The keys of EXT. -/
def Memory.keys (m : Memory) : List Nat := m.ext.map Prod.fst

/-- The canonical form of memory: PRIM fits the address space, the addresses of EXT rise strictly, and each is in
[N, MAX_ADDR] (10_state.md R29, R34). -/
abbrev Memory.wf (m : Memory) : Prop :=
  m.size ≤ maxAddr + 1 ∧ m.keys.Pairwise (· < ·) ∧ ∀ a ∈ m.keys, m.size ≤ a ∧ a ≤ maxAddr

/-! ## Registers and queues -/

def State.setPc (s : State) (a : Nat) : State := { s with pc := a }

def State.setRb (s : State) (v : Word) : State := { s with rb := v }

def State.setRs (s : State) (r : RunState) : State := { s with rs := r }

def State.setBusy (s : State) (b : Bool) : State := { s with busy := b }

/-- A write of one Word of memory, with no capacity check (R44). -/
def State.store (s : State) (a : Nat) (v : Word) : State := { s with mem := s.mem.write a v }

/-- The oldest unread input, if any (10_state.md R30). -/
def State.nextInput (s : State) : Option Word := s.inQ[s.inCur]?

/-- Moves the input read cursor past one element (41_io.md R120). -/
def State.consumeInput (s : State) : State := { s with inCur := s.inCur + 1 }

/-- `append(OUT, v)` (41_io.md R121). -/
def State.appendOutput (s : State) (v : Word) : State := { s with outQ := s.outQ ++ [v] }

/-! ## Taking a fault -/

/-- The cause number of a fault (60_exceptions.md R201). -/
def FaultInfo.code : FaultInfo → Nat
  | .unknownOpcode _ _ => 1
  | .unknownMode _ _ _ => 2
  | .immediateWriteTarget _ _ => 3
  | .invalidAddress _ _ _ _ => 4
  | .relativeBaseOverflow _ _ _ => 5
  | .runWhileHalted => 6
  | .capacityExceeded _ _ => 7

/-- The 2-bit encoding of the run state (10_state.md R26). -/
def RunState.code : RunState → BitVec 2
  | .running => 0
  | .waitingForInput => 1
  | .halted => 2

/-- Fault entry, exactly (60_exceptions.md R210): FAULT takes the cause and info if it holds none, the Run in progress
ends, and nothing else is written. There is no vector, no handler and no return (R211). -/
def State.raise (s : State) (f : FaultInfo) : State :=
  { s with fault := some (s.fault.getD f), busy := false }

/-- How an instruction ends: with its commit, or with the fault its first failing check raised on the state before it
(30_encoding.md R81). Either is a next state. -/
def State.finish (s : State) (r : Except FaultInfo State) : Outcome :=
  match r with
  | .ok t => .next t
  | .error f => .next (s.raise f)

/-! ## Checks an instruction makes before its commit -/

/-- Whether a store that holds `used` entries is full under a capacity (20_memory.md R44: `|keys(EXT)| = EXT_CAPACITY`). -/
def atCapacity (used : Nat) (capacity : Option Nat) : Bool := capacity == some used

/-- `check_write(a)` (R44). -/
def State.checkWrite (s : State) (a : Nat) : Except FaultInfo Unit :=
  if s.mem.size ≤ a ∧ a ∉ s.mem.keys ∧ atCapacity s.mem.keys.length s.config.extCapacity then
    .error (.capacityExceeded (some s.pc) .extension)
  else .ok ()

/-- `next_ip(w)` (30_encoding.md R82). -/
def State.nextIp (s : State) (w : Nat) : Except FaultInfo Nat :=
  if maxAddr < s.pc + w then .error (.invalidAddress s.pc none (s.pc + w : Nat) .advance)
  else .ok (s.pc + w)

/-- The check of OUT_CAPACITY (41_io.md R121). -/
def State.checkOutput (s : State) : Except FaultInfo Unit :=
  if atCapacity s.outQ.length s.config.outCapacity then .error (.capacityExceeded (some s.pc) .outputQueue)
  else .ok ()

end Sys2Proof.Machine
end

