-- ==== Sys2Proof/Machine/Flags.lean ====
section
/-! DEFINITION. The core has no flags and no condition codes (spec/10_state.md R25): comparisons give a Word, 0 or 1,
and the conditional jumps test a Word. -/

namespace Sys2Proof.Machine

/-- The Word a comparison writes: exactly 0 or 1 (40_alu.md R101). -/
def truthWord (b : Bool) : Word := if b then 1 else 0

/-- The condition of a conditional jump: any non-zero Word is true, negative included (42_jumps.md R140, R141). -/
def conditionHolds (c : Word) : Bool := c != 0

end Sys2Proof.Machine
end

