-- ==== Sys2Proof/Machine/Operands.lean ====
section
/-! DEFINITION. The operand resolver: parameter words and the three addressing modes (spec/30_encoding.md R71 to R76). -/

namespace Sys2Proof.Machine

/-- `param_word(k)` (R74). -/
def State.paramWord (s : State) (k : Param) : Except FaultInfo Word :=
  if validAddr (s.pc + k.index : Nat) then .ok (s.mem.read (s.pc + k.index))
  else .error (.invalidAddress s.pc (some k) (s.pc + k.index : Nat) .operandFetch)

/-- `rel_addr(raw)`: the exact sum, not wrapped (R73). -/
def State.relAddr (s : State) (raw : Word) : Int := s.rb.toInt + raw.toInt

/-- An address computed as an exact integer, checked before it is used (20_memory.md R41). -/
def State.checkAddr (s : State) (k : Param) (kind : AddrKind) (a : Int) : Except FaultInfo Nat :=
  if validAddr a then .ok a.toNat else .error (.invalidAddress s.pc (some k) a kind)

/-- `value_of(k)` with the mode of parameter k (R71). -/
def State.valueOf (s : State) (k : Param) (m : Mode) : Except FaultInfo Word := do
  let raw ← s.paramWord k
  match m with
  | .immediate => return raw
  | .position => return s.mem.read (← s.checkAddr k .read raw.toInt)
  | .relative => return s.mem.read (← s.checkAddr k .read (s.relAddr raw))

/-- `address_of(k)` with the mode of parameter k (R72). -/
def State.addressOf (s : State) (k : Param) (m : Mode) : Except FaultInfo Nat := do
  let raw ← s.paramWord k
  match m with
  | .immediate => .error (.immediateWriteTarget s.pc k)
  | .position => s.checkAddr k .write raw.toInt
  | .relative => s.checkAddr k .write (s.relAddr raw)

end Sys2Proof.Machine
end

