-- ==== Sys2Proof/Machine/Alu.lean ====
section
/-! DEFINITION. The ALU family: Add, Multiply, LessThan, Equals (spec/40_alu.md). -/

namespace Sys2Proof.Machine

/-- The wrapped sum (R100). -/
def aluSum (a b : Word) : Word := wrap64 (a.toInt + b.toInt)

/-- The wrapped product (R100). -/
def aluProduct (a b : Word) : Word := wrap64 (a.toInt * b.toInt)

/-- The signed less-than predicate (R101, R104). -/
def aluLess (a b : Word) : Word := truthWord (decide (a.toInt < b.toInt))

/-- The equality predicate (R101, R105). -/
def aluEqual (a b : Word) : Word := truthWord (a == b)

/-- The datapath the four instructions share (R106): two value operands, one write operand, the capacity check, a
width-4 advance, then the commit. All reads are of the state before the instruction (20_memory.md R55). -/
def aluCommit (f : Word → Word → Word) (m1 m2 m3 : Mode) (s : State) : Except FaultInfo State := do
  let a ← s.valueOf .p1 m1
  let b ← s.valueOf .p2 m2
  let d ← s.addressOf .p3 m3
  s.checkWrite d
  let np ← s.nextIp 4
  return (s.store d (f a b)).setPc np

/-- Add (R102). -/
def execAdd (m1 m2 m3 : Mode) (s : State) : Outcome := s.finish (aluCommit aluSum m1 m2 m3 s)

/-- Multiply (R103). -/
def execMultiply (m1 m2 m3 : Mode) (s : State) : Outcome := s.finish (aluCommit aluProduct m1 m2 m3 s)

/-- LessThan (R104). -/
def execLessThan (m1 m2 m3 : Mode) (s : State) : Outcome := s.finish (aluCommit aluLess m1 m2 m3 s)

/-- Equals (R105). -/
def execEquals (m1 m2 m3 : Mode) (s : State) : Outcome := s.finish (aluCommit aluEqual m1 m2 m3 s)

end Sys2Proof.Machine
end

