-- ==== Sys2Proof/Machine/Io.lean ====
section
/-! DEFINITION. The input and output instructions: Input, Output (spec/41_io.md). -/

namespace Sys2Proof.Machine

/-- The commit of Input (R120): the write operand is resolved before the queue is tested; with no unread input the
instruction blocks and writes RS alone. -/
def inputCommit (m1 : Mode) (s : State) : Except FaultInfo State := do
  let d ← s.addressOf .p1 m1
  match s.nextInput with
  | none => return s.setRs .waitingForInput
  | some v =>
    s.checkWrite d
    let np ← s.nextIp 2
    return ((s.store d v).consumeInput).setPc np

/-- Input (R120). -/
def execInput (m1 : Mode) (s : State) : Outcome := s.finish (inputCommit m1 s)

/-- The commit of Output (R121). -/
def outputCommit (m1 : Mode) (s : State) : Except FaultInfo State := do
  let v ← s.valueOf .p1 m1
  s.checkOutput
  let np ← s.nextIp 2
  return (s.appendOutput v).setPc np

/-- Output (R121). -/
def execOutput (m1 : Mode) (s : State) : Outcome := s.finish (outputCommit m1 s)

end Sys2Proof.Machine
end

