-- ==== Sys2Proof/Machine/Jumps.lean ====
section
/-! DEFINITION. The conditional jumps: JumpIfTrue, JumpIfFalse (spec/42_jumps.md). -/

namespace Sys2Proof.Machine

/-- The check of a taken jump's target (R140, R141): a negative target faults, and every other Word is an address. -/
def State.jumpTarget (s : State) (t : Word) : Except FaultInfo Nat :=
  if t.toInt < 0 then .error (.invalidAddress s.pc (some .p2) t.toInt .jump) else .ok t.toInt.toNat

/-- Where a conditional jump goes: to its target when taken, else past its own words. -/
def State.jumpOrAdvance (s : State) (taken : Bool) (t : Word) : Except FaultInfo Nat :=
  if taken then s.jumpTarget t else s.nextIp 3

/-- The commit of a conditional jump: both operands are resolved whether or not the jump is taken (30_encoding.md R83). -/
def jumpCommit (taken : Word → Bool) (m1 m2 : Mode) (s : State) : Except FaultInfo State := do
  let c ← s.valueOf .p1 m1
  let t ← s.valueOf .p2 m2
  let np ← s.jumpOrAdvance (taken c) t
  return s.setPc np

/-- JumpIfTrue (R140). -/
def execJumpIfTrue (m1 m2 : Mode) (s : State) : Outcome := s.finish (jumpCommit conditionHolds m1 m2 s)

/-- JumpIfFalse (R141). -/
def execJumpIfFalse (m1 m2 : Mode) (s : State) : Outcome := s.finish (jumpCommit (fun c => !conditionHolds c) m1 m2 s)

end Sys2Proof.Machine
end

