-- ==== Sys2Proof/Machine/System.lean ====
section
/-! DEFINITION. The system family: RelativeBaseOffset, Halt (spec/43_relbase_halt.md). -/

namespace Sys2Proof.Machine

/-- The relative base after an offset, computed exactly; it faults where the sum is no Word (R160). -/
def State.offsetRb (s : State) (k : Word) : Except FaultInfo Word :=
  if inWord (s.rb.toInt + k.toInt) then .ok (wrap64 (s.rb.toInt + k.toInt))
  else .error (.relativeBaseOverflow s.pc s.rb k)

/-- The commit of RelativeBaseOffset (R160): a Relative operand is resolved with the old RB. -/
def relativeBaseCommit (m1 : Mode) (s : State) : Except FaultInfo State := do
  let k ← s.valueOf .p1 m1
  let nb ← s.offsetRb k
  let np ← s.nextIp 2
  return (s.setRb nb).setPc np

/-- RelativeBaseOffset (R160). -/
def execRelativeBaseOffset (m1 : Mode) (s : State) : Outcome := s.finish (relativeBaseCommit m1 s)

/-- Halt (R161): RS alone is written; the pc stays at the Halt (90_conflicts.md C1). BUSY is cleared by the step that
ends the Run (60_exceptions.md R223), not by the instruction. -/
def execHalt (s : State) : Outcome := .next (s.setRs .halted)

end Sys2Proof.Machine
end

