-- ==== Sys2Proof/Machine/Engine.lean ====
section
/-! DEFINITION. One step of the Execution Engine: fetch, decode, dispatch, and the end of a Run (spec/30_encoding.md R80,
60_exceptions.md R223). -/

namespace Sys2Proof.Machine

/-- When a step is enabled (30_encoding.md R80): BUSY = 1, RS = Running, FAULT = none. -/
def State.enabled (s : State) : Bool := s.busy && s.rs == .running && s.fault == none

/-- The loop test of Run after a step (60_exceptions.md R223, R230): BUSY is cleared unless the loop goes on. -/
def State.endRunUnlessEnabled (s : State) : State := if s.enabled then s else s.setBusy false

/-- The fault a decode failure raises (30_encoding.md R66): ip is the pc, word the instruction word. -/
def decodeFault (pc : Nat) (w : Word) : DecodeError → FaultInfo
  | .unknownOpcode => .unknownOpcode pc w
  | .unknownMode k => .unknownMode pc w k

/-- The instruction word at the pc (R80). -/
def State.fetch (s : State) : Word := s.mem.read s.pc

/-- What follows an instruction within its step: the loop test of Run. -/
def endOfStep : Outcome → Outcome
  | .next t => .next t.endRunUnlessEnabled
  | .fault r => .fault r
  | .refused r => .refused r

/-- One step. With no instruction enabled nothing executes: the state stays, but for a BUSY that no longer belongs to a
Run (DESIGN CHOICE, notes/assumptions/3.md, safe). -/
def engineStep (s : State) : Outcome :=
  if s.enabled then
    if s.pc ≤ maxAddr then
      match decode s.fetch with
      | .ok i => endOfStep (exec i s)
      | .error e => .next (s.raise (decodeFault s.pc s.fetch e))
    else .fault .pcOutsideMemory
  else .next s.endRunUnlessEnabled

/-- A word stored for `withFetchWord`: at an address the memory has. -/
def State.place (s : State) (a : Nat) (v : Word) : State := if a ≤ maxAddr then s.store a v else s

/-- The state with up to four words stored at the pc and a Run in progress, so that the next step fetches them. -/
def State.placeAtPc (s : State) (w0 w1 w2 w3 : Word) : State :=
  let t := (((s.place s.pc w0).place (s.pc + 1) w1).place (s.pc + 2) w2).place (s.pc + 3) w3
  { t with busy := true, rs := .running, fault := none }

end Sys2Proof.Machine
end

