-- ==== Sys2Proof/Machine/Step.lean ====
section
/-! DEFINITION. The machine's step, and a state about to fetch a given instruction. -/

namespace Sys2Proof.Machine

/-- One step of the core (spec/30_encoding.md R80). -/
def step (s : State) : Host.Outcome State Fault Refusal := engineStep s

/-- `s` with the instruction whose first `nbits` bits are `w`, and whose later bits are 0, stored at the pc, and with a
Run in progress (notes/assumptions/4.md). -/
def State.withFetchWord (s : State) (nbits w : Nat) : State :=
  s.placeAtPc (tableWord nbits w 0) (tableWord nbits w 1) (tableWord nbits w 2) (tableWord nbits w 3)

end Sys2Proof.Machine
end

