-- ==== Sys2Proof/Machine/Commands.lean ====
section
/-! DEFINITION. The host command interface and the Run loop (spec/60_exceptions.md R218 to R231; 70_reset_and_hazards.md
R250). -/

namespace Sys2Proof.Machine

/-- The commands, the complete list (R220). -/
inductive Command where
  | construct (words : List Word)
  | pushInput (v : Word)
  | run
  | hasOutput
  | getOutput
  | lastOutput
  | isHalted
  | isHaltedOrBlocked
  /-- The address is any integer; an invalid one is refused (R229). -/
  | peekMemory (a : Int)
  deriving DecidableEq, Repr

/-- What the host gets back (R220). -/
inductive Answer where
  | nothing
  | bool (b : Bool)
  /-- A Word, or none. -/
  | optWord (w : Option Word)
  | word (w : Word)
  deriving DecidableEq, Repr

/-- The end of a command: done, or refused with no effect and no answer (R212). A command that raises a fault is done:
FAULT is written and the host gets nothing back (R210). -/
inductive CommandResult where
  | done (answer : Answer) (s : State)
  | refused
  deriving DecidableEq, Repr

/-- Construct(words), the core's one reset (70_reset_and_hazards.md R250, R251); the capacities are parameters of the
core and stay. -/
def State.constructed (s : State) (words : List Word) : State :=
  { State.reset with mem := ⟨words, []⟩, config := s.config }

/-- PushInput(v) (R222). -/
def State.pushInput (s : State) (v : Word) : State :=
  if atCapacity s.inQ.length s.config.inCapacity then s.raise (.capacityExceeded none .inputQueue)
  else { s with inQ := s.inQ ++ [v], rs := if s.rs = .waitingForInput then .running else s.rs }

/-- The start of Run (R223): up to the loop. The loop's steps are `step`, and the step that ends the loop clears BUSY. -/
def State.startRun (s : State) : State :=
  match s.rs with
  | .halted => s.raise .runWhileHalted
  | .waitingForInput => s
  | .running => s.setBusy true

/-- The oldest unread output, if any (10_state.md R31). -/
def State.nextOutput (s : State) : Option Word := s.outQ[s.outCur]?

/-- GetOutput (R225). -/
def State.getOutput (s : State) : CommandResult :=
  match s.nextOutput with
  | none => .done (.optWord none) s
  | some v => .done (.optWord (some v)) { s with outCur := s.outCur + 1 }

/-- A command other than Construct is refused while a fault is recorded: no effect, no answer (R212). -/
def State.unlessFaulted (s : State) (r : CommandResult) : CommandResult := if s.fault = none then r else .refused

/-- One host command. While BUSY = 1 the host may issue none (R218; 93_implementation_defined.md U14). Construct takes at
most MAX_ADDR + 1 words (00_scope.md R6); PeekMemory takes a valid address (R229). -/
def command (c : Command) (s : State) : CommandResult :=
  if s.busy then .refused
  else match c with
    | .construct words => if words.length ≤ maxAddr + 1 then .done .nothing (s.constructed words) else .refused
    | .pushInput v => s.unlessFaulted (.done .nothing (s.pushInput v))
    | .run => s.unlessFaulted (.done .nothing s.startRun)
    | .hasOutput => s.unlessFaulted (.done (.bool (decide (s.outCur < s.outQ.length))) s)
    | .getOutput => s.unlessFaulted s.getOutput
    | .lastOutput => s.unlessFaulted (.done (.optWord s.outQ.getLast?) s)
    | .isHalted => s.unlessFaulted (.done (.bool (s.rs == .halted)) s)
    | .isHaltedOrBlocked => s.unlessFaulted (.done (.bool (s.rs == .halted || s.rs == .waitingForInput)) s)
    | .peekMemory a => s.unlessFaulted (if validAddr a then .done (.word (s.mem.read a.toNat)) s else .refused)

/-- The end of a Run under fuel. -/
inductive RunEnd where
  /-- The Run ended, and the host has control again (R230). -/
  | ended (s : State)
  /-- The fuel is exhausted; this is no end of the Run (R231). -/
  | outOfFuel (s : State)
  /-- A step stopped the model. -/
  | stopped (f : Fault)
  /-- A step was refused. -/
  | refused (r : Refusal)
  deriving DecidableEq, Repr

/-- The loop of Run, from a state in which it may be in progress, for at most `fuel` steps (R223, R231). -/
def runLoop : Nat → State → RunEnd
  | 0, s => if s.busy then .outOfFuel s else .ended s
  | fuel + 1, s =>
    if s.busy then
      match step s with
      | .next t => runLoop fuel t
      | .fault f => .stopped f
      | .refused r => .refused r
    else .ended s

/-- The Run command to its end, under fuel; none where the command is refused. -/
def runFor (fuel : Nat) (s : State) : Option RunEnd :=
  match command .run s with
  | .done _ t => some (runLoop fuel t)
  | .refused => none

end Sys2Proof.Machine
end

