-- ==== Sys2Proof/Safety.lean ====
section
/-! DEFINITION. The terms in which claims about the core are stated: the operand conditions and checks of the spec written
as plain conditions on a state (independent of the resolver's own code), the invariants of spec/10_state.md R34, and the
reachable states. -/

namespace Sys2Proof.Machine

/-! ## Operands, as conditions on a state (spec/30_encoding.md R71 to R75) -/

/-- The parameter word k lies in memory (R74). -/
abbrev State.Fetchable (s : State) (k : Param) : Prop := s.pc + k.index ≤ maxAddr

/-- The raw word of parameter k. -/
def State.raw (s : State) (k : Param) : Word := s.mem.read (s.pc + k.index)

/-- The exact integer address a Position or Relative parameter names; for Immediate, which names none, the raw word. -/
def State.target (s : State) (k : Param) : Mode → Int
  | .position => (s.raw k).toInt
  | .relative => s.rb.toInt + (s.raw k).toInt
  | .immediate => (s.raw k).toInt

/-- The address named by parameter k is an address of the memory (20_memory.md R41). -/
abbrev State.Addressable (s : State) (k : Param) (m : Mode) : Prop := 0 ≤ s.target k m ∧ s.target k m ≤ maxAddr

/-- Parameter k resolves as a value operand (R71). -/
abbrev State.Readable (s : State) (k : Param) (m : Mode) : Prop :=
  s.Fetchable k ∧ (m = .immediate ∨ s.Addressable k m)

/-- The value of a readable operand (R71). -/
def State.operand (s : State) (k : Param) (m : Mode) : Word :=
  match m with
  | .immediate => s.raw k
  | .position => s.mem.read (s.target k .position).toNat
  | .relative => s.mem.read (s.target k .relative).toNat

/-- Parameter k resolves as a write operand (R72). -/
abbrev State.Writable (s : State) (k : Param) (m : Mode) : Prop :=
  s.Fetchable k ∧ m ≠ .immediate ∧ s.Addressable k m

/-- The address of a writable operand (R72). -/
def State.dst (s : State) (k : Param) (m : Mode) : Nat := (s.target k m).toNat

/-- The write of an address needs no entry beyond EXT_CAPACITY (20_memory.md R44). -/
abbrev State.HasRoom (s : State) (a : Nat) : Prop :=
  a < s.mem.size ∨ a ∈ s.mem.keys ∨ s.config.extCapacity ≠ some s.mem.keys.length

/-- An unread input exists (10_state.md R30). -/
abbrev State.HasInput (s : State) : Prop := s.inCur < s.inQ.length

/-! ## The checks of an instruction, in evaluation order (spec/30_encoding.md R83; 60_exceptions.md R209) -/

/-- The fault `f` where the condition `c` fails. -/
def faultUnless (c : Bool) (f : FaultInfo) : Option FaultInfo := if c then none else some f

/-- The checks of a value operand: its operand-fetch, then its read. -/
def readChecks (s : State) (k : Param) (m : Mode) : List (Option FaultInfo) :=
  [faultUnless (decide (s.Fetchable k)) (.invalidAddress s.pc (some k) (s.pc + k.index : Nat) .operandFetch),
   faultUnless (decide (m = .immediate ∨ s.Addressable k m)) (.invalidAddress s.pc (some k) (s.target k m) .read)]

/-- The checks of a write operand: its operand-fetch, then its mode, then its address. -/
def writeChecks (s : State) (k : Param) (m : Mode) : List (Option FaultInfo) :=
  [faultUnless (decide (s.Fetchable k)) (.invalidAddress s.pc (some k) (s.pc + k.index : Nat) .operandFetch),
   faultUnless (decide (m ≠ .immediate)) (.immediateWriteTarget s.pc k),
   faultUnless (decide (s.Addressable k m)) (.invalidAddress s.pc (some k) (s.target k m) .write)]

/-- The capacity check of a write. -/
def roomCheck (s : State) (a : Nat) : Option FaultInfo :=
  faultUnless (decide (s.HasRoom a)) (.capacityExceeded (some s.pc) .extension)

/-- The check of a fall-through advance by w. -/
def advanceCheck (s : State) (w : Nat) : Option FaultInfo :=
  faultUnless (decide (s.pc + w ≤ maxAddr)) (.invalidAddress s.pc none (s.pc + w : Nat) .advance)

/-- The check of a taken jump, or of the advance of a jump not taken. -/
def jumpCheck (s : State) (m2 : Mode) (taken : Bool) : Option FaultInfo :=
  if taken then
    faultUnless (decide (0 ≤ (s.operand .p2 m2).toInt)) (.invalidAddress s.pc (some .p2) (s.operand .p2 m2).toInt .jump)
  else advanceCheck s 3

/-- The checks of the ALU family (40_alu.md R102 to R105). -/
def aluChecks (s : State) (m1 m2 m3 : Mode) : List (Option FaultInfo) :=
  readChecks s .p1 m1 ++ readChecks s .p2 m2 ++ writeChecks s .p3 m3 ++ [roomCheck s (s.dst .p3 m3), advanceCheck s 4]

/-- Every check of an instruction on a state, in the order it makes them; none where the check passes. Input's queue test
blocks rather than faults, and a blocked Input makes no later check (41_io.md R120). -/
def checksOf (i : Instr) (s : State) : List (Option FaultInfo) :=
  match i with
  | .add m1 m2 m3 => aluChecks s m1 m2 m3
  | .multiply m1 m2 m3 => aluChecks s m1 m2 m3
  | .lessThan m1 m2 m3 => aluChecks s m1 m2 m3
  | .equals m1 m2 m3 => aluChecks s m1 m2 m3
  | .input m1 _ _ =>
    writeChecks s .p1 m1 ++ if s.HasInput then [roomCheck s (s.dst .p1 m1), advanceCheck s 2] else []
  | .output m1 _ _ =>
    readChecks s .p1 m1 ++
      [faultUnless (decide (s.config.outCapacity ≠ some s.outQ.length)) (.capacityExceeded (some s.pc) .outputQueue),
       advanceCheck s 2]
  | .jumpIfTrue m1 m2 _ =>
    readChecks s .p1 m1 ++ readChecks s .p2 m2 ++ [jumpCheck s m2 (decide (s.operand .p1 m1 ≠ 0))]
  | .jumpIfFalse m1 m2 _ =>
    readChecks s .p1 m1 ++ readChecks s .p2 m2 ++ [jumpCheck s m2 (decide (s.operand .p1 m1 = 0))]
  | .relativeBaseOffset m1 _ _ =>
    readChecks s .p1 m1 ++
      [faultUnless (decide (-2 ^ 63 ≤ s.rb.toInt + (s.operand .p1 m1).toInt ∧
          s.rb.toInt + (s.operand .p1 m1).toInt ≤ 2 ^ 63 - 1))
        (.relativeBaseOverflow s.pc s.rb (s.operand .p1 m1)),
       advanceCheck s 2]
  | .halt _ _ _ => []

/-- The first fault in a list of checks. -/
def firstOf : List (Option FaultInfo) → Option FaultInfo
  | [] => none
  | some f :: _ => some f
  | none :: rest => firstOf rest

/-- The one fault an instruction reports on a state, if any (R209). -/
def firstFault (i : Instr) (s : State) : Option FaultInfo := firstOf (checksOf i s)

/-! ## Invariants and reachable states -/

/-- An instruction is executed by the next step (30_encoding.md R80): BUSY = 1, RS = Running, FAULT = none, and the pc is
an address (10_state.md R22). -/
abbrev State.CanStep (s : State) : Prop := s.busy = true ∧ s.rs = .running ∧ s.fault = none ∧ s.pc ≤ maxAddr

/-- The invariants of 10_state.md R34 on one state, clause by clause. Its last clause, that Halted is never left before the
next Construct, speaks of two states. -/
abbrev State.RuleInv (s : State) : Prop :=
  s.pc ≤ maxAddr ∧ s.inCur ≤ s.inQ.length ∧ s.outCur ≤ s.outQ.length ∧
    (∀ a ∈ s.mem.keys, s.mem.size ≤ a ∧ a ≤ maxAddr) ∧ (s.rs = .waitingForInput → s.inCur = s.inQ.length) ∧
    (s.busy = true → s.rs = .running ∧ s.fault = none)

/-- The inductive invariant: the clauses of R34 and the form of memory, whose strictly rising keys are the model's own
canonical form of the map EXT (notes/assumptions/1.md). -/
abbrev State.Inv (s : State) : Prop := s.RuleInv ∧ s.mem.wf

/-- No store holds more than its capacity (20_memory.md R44; 41_io.md R121; 60_exceptions.md R222). -/
abbrev State.WithinCapacity (s : State) : Prop :=
  (∀ c ∈ s.config.extCapacity, s.mem.keys.length ≤ c) ∧ (∀ c ∈ s.config.inCapacity, s.inQ.length ≤ c) ∧
    (∀ c ∈ s.config.outCapacity, s.outQ.length ≤ c)

/-- One move of the whole machine: a step of the engine, or an accepted host command. -/
inductive Move (s t : State) : Prop where
  | engine (h : step s = .next t)
  | host (c : Command) (a : Answer) (h : command c s = .done a t)

/-- The states of the whole machine: from reset, with any capacities, by moves. -/
inductive Reachable : State → Prop where
  | start (c : Config) : Reachable { State.reset with config := c }
  | move {s t : State} (h : Reachable s) (m : Move s t) : Reachable t

/-- Two states that differ at most in how memory is split into PRIM and EXT (20_memory.md R46). -/
structure FlatEq (s t : State) : Prop where
  sameMemory : ∀ a, s.mem.read a = t.mem.read a
  sameRest : s = { t with mem := s.mem }

end Sys2Proof.Machine
end

