-- ==== Sys2Proof/Certificates/Slice0/Obligations.lean ====
section
/-! DEFINITION. The statements about the model, each from the numbered rules of spec/. -/

open Sys2Proof Sys2Proof.Machine

/-! ## Decoder and encoding -/

/-- A few words of spec/95_test_vectors.md section 2.1, one or more of each family, decode as listed there or as the
instruction rules write them out. -/
def Obligations.SpecWordsDecode : Prop :=
  decode 1 = .ok (.add .position .position .position) ∧
  decode 1002 = .ok (.multiply .position .immediate .position) ∧
  decode 203 = .ok (.input .relative .position .position) ∧
  decode 104 = .ok (.output .immediate .position .position) ∧
  decode 1106 = .ok (.jumpIfFalse .immediate .immediate .position) ∧
  decode 109 = .ok (.relativeBaseOffset .immediate .position .position) ∧
  decode 20099 = .ok (.halt .position .position .relative) ∧
  decode 0 = .error .unknownOpcode ∧ decode 398 = .error .unknownOpcode ∧ decode (-99) = .error .unknownOpcode ∧
  decode 301 = .error (.unknownMode .p1) ∧ decode 3001 = .error (.unknownMode .p2) ∧
  decode 30004 = .error (.unknownMode .p3)

/-- R79: the word sequence of an instruction, and that decoding its first word gives the instruction back, for every row
of the Operation table (opcode, operation, width - 1; 0 for Halt) and every mode of every parameter. -/
def Obligations.EncodedInstructionDecodes : Prop :=
  ∀ (n : Nat) (operation : Mode → Mode → Mode → Instr) (count : Nat) (m1 m2 m3 : Mode) (r : List Word),
    (n, operation, count) ∈ [(1, Instr.add, 3), (2, Instr.multiply, 3), (3, Instr.input, 1), (4, Instr.output, 1),
      (5, Instr.jumpIfTrue, 2), (6, Instr.jumpIfFalse, 2), (7, Instr.lessThan, 3), (8, Instr.equals, 3),
      (9, Instr.relativeBaseOffset, 1), (99, Instr.halt, 0)] →
    r.length = count →
    encodeWords (operation m1 m2 m3) r =
      BitVec.ofNat 64 (n + 100 * m1.toDigit + 1000 * m2.toDigit + 10000 * m3.toDigit) :: r ∧
    decode (BitVec.ofNat 64 (n + 100 * m1.toDigit + 1000 * m2.toDigit + 10000 * m3.toDigit)) =
      .ok (operation m1 m2 m3)

/-- R65: digits of weight 10^5 and above are not examined. -/
def Obligations.DecodeExaminesFiveDigits : Prop :=
  (∀ v w : Word, 0 ≤ v.toInt → 0 ≤ w.toInt → v.toNat % 100000 = w.toNat % 100000 → decode v = decode w) ∧
    decode 100001 = .ok (.add .position .position .position) ∧ decode 1 = .ok (.add .position .position .position)

/-- What the decoder accepts, exactly: a word decodes to an instruction where it is not negative and its low five digits
are the instruction's canonical word. -/
def Obligations.DecodeAcceptsExactlyCanonicalLowDigits : Prop :=
  ∀ (w : Word) (i : Instr), decode w = .ok i ↔ 0 ≤ w.toInt ∧ w.toNat % 100000 = (encode i).toNat

/-- The decoder's checks in order: the sign, the opcode, the modes of parameters 1, 2 and 3, all for every opcode. -/
def Obligations.DecodeChecksInOrder : Prop :=
  ∀ w : Word,
    (w.toInt < 0 → decode w = .error .unknownOpcode) ∧
    (0 ≤ w.toInt → w.toNat % 100 ∉ [1, 2, 3, 4, 5, 6, 7, 8, 9, 99] → decode w = .error .unknownOpcode) ∧
    (0 ≤ w.toInt → w.toNat % 100 ∈ [1, 2, 3, 4, 5, 6, 7, 8, 9, 99] →
      if 2 < w.toNat / 100 % 10 then decode w = .error (.unknownMode .p1)
      else if 2 < w.toNat / 1000 % 10 then decode w = .error (.unknownMode .p2)
      else if 2 < w.toNat / 10000 % 10 then decode w = .error (.unknownMode .p3)
      else ∃ i, decode w = .ok i)

/-- R202: a step that meets a negative word, or an opcode that is not 1 to 9 or 99, faults UnknownOpcode and writes
nothing else; never-written memory, which reads 0, does so with word 0. -/
def Obligations.UnknownOpcodeFaults : Prop :=
  ∀ s : State, s.CanStep →
    ((s.mem.read s.pc).toInt < 0 ∨ (s.mem.read s.pc).toNat % 100 ∉ [1, 2, 3, 4, 5, 6, 7, 8, 9, 99] →
      step s = .next { s with fault := some (.unknownOpcode s.pc (s.mem.read s.pc)), busy := false }) ∧
    (s.mem.size ≤ s.pc → s.pc ∉ s.mem.keys →
      step s = .next { s with fault := some (.unknownOpcode s.pc 0), busy := false })

/-- R203: a mode digit 3 to 9 faults UnknownMode at the lowest such parameter, for every opcode, and writes nothing else. -/
def Obligations.UnknownModeFaults : Prop :=
  ∀ (s : State) (k : Param), s.CanStep → 0 ≤ (s.mem.read s.pc).toInt →
    (s.mem.read s.pc).toNat % 100 ∈ [1, 2, 3, 4, 5, 6, 7, 8, 9, 99] →
    2 < (s.mem.read s.pc).toNat / 10 ^ (k.index + 1) % 10 →
    (∀ j : Param, j.index < k.index → (s.mem.read s.pc).toNat / 10 ^ (j.index + 1) % 10 ≤ 2) →
    step s = .next { s with fault := some (.unknownMode s.pc (s.mem.read s.pc) k), busy := false }

/-! ## The step -/

/-- A step runs the decoded instruction: where the word at the pc decodes to i, the step's next state is that of exec i,
with BUSY cleared unless the core is still Running with no fault. -/
def Obligations.StepRunsDecodedInstruction : Prop :=
  ∀ (s t : State) (i : Instr), s.CanStep → decode (s.mem.read s.pc) = .ok i → exec i s = .next t →
    step s = .next { t with busy := decide (t.busy = true ∧ t.rs = .running ∧ t.fault = none) }

/-- With no Run in progress a step leaves the state as it is (the model's choice, notes/assumptions/3.md). -/
def Obligations.StepWithoutRunStays : Prop :=
  ∀ s : State, s.busy = false → step s = .next s

/-- Every enabled step answers a next state, and its FAULT register holds exactly the first fault in the order of R209:
that of the decoder, else the first failing check of the instruction, else none. -/
def Obligations.StepReportsFirstFault : Prop :=
  ∀ s : State, s.CanStep → ∃ t, step s = .next t ∧
    t.fault = match decode (s.mem.read s.pc) with
      | .error .unknownOpcode => some (.unknownOpcode s.pc (s.mem.read s.pc))
      | .error (.unknownMode k) => some (.unknownMode s.pc (s.mem.read s.pc) k)
      | .ok i => firstFault i s

/-- R210: a step or a command that faults writes FAULT, ends the Run, and writes nothing else; a fault is recorded where
FAULT holds none, and a FAULT already recorded stays. R200 says that the core executes nothing after it; that a step then
answers the same state is the model's choice (notes/assumptions/3.md). -/
def Obligations.FaultEntryWritesOnlyFault : Prop :=
  (∀ s t : State, s.CanStep → step s = .next t → t.fault ≠ none →
    t = { s with fault := t.fault, busy := false } ∧ step t = .next t) ∧
  (∀ (c : Command) (a : Answer) (s t : State), command c s = .done a t → t.fault ≠ none →
    t = { s with fault := t.fault }) ∧
  (∀ (s : State) (f : FaultInfo), s.fault = none → s.raise f = { s with fault := some f, busy := false }) ∧
  (∀ (s : State) (f g : FaultInfo), s.fault = some g → (s.raise f).fault = some g)

/-! ## Words and operands -/

/-- R7: the Words are the integers from -2^63 to 2^63 - 1, in_word tests for them, and wrap64 is the formula of the rule,
which keeps the low 64 bits. -/
def Obligations.WrapIsTwosComplement : Prop :=
  (∀ x : Int, (∃ w : Word, w.toInt = x) ↔ -2 ^ 63 ≤ x ∧ x ≤ 2 ^ 63 - 1) ∧
  (∀ x : Int, inWord x = true ↔ ∃ w : Word, w.toInt = x) ∧
  (∀ x : Int, (wrap64 x).toInt = (x + 2 ^ 63) % 2 ^ 64 - 2 ^ 63 ∧ ((wrap64 x).toNat : Int) = x % 2 ^ 64)

/-- R71, R73, R74: a value operand resolves to its value, or raises the first fault of its operand-fetch and its read. -/
def Obligations.ValueOperandResolves : Prop :=
  ∀ (s : State) (k : Param) (m : Mode),
    s.valueOf k m =
      if ¬ s.pc + k.index ≤ maxAddr then
        .error (.invalidAddress s.pc (some k) (s.pc + k.index : Nat) .operandFetch)
      else if m = .immediate then .ok (s.mem.read (s.pc + k.index))
      else if ¬ s.Addressable k m then .error (.invalidAddress s.pc (some k) (s.target k m) .read)
      else .ok (s.mem.read (s.target k m).toNat)

/-- R72, R73, R74: a write operand resolves to its address, or raises the first fault of its operand-fetch, its mode and
its address. -/
def Obligations.WriteOperandResolves : Prop :=
  ∀ (s : State) (k : Param) (m : Mode),
    s.addressOf k m =
      if ¬ s.pc + k.index ≤ maxAddr then
        .error (.invalidAddress s.pc (some k) (s.pc + k.index : Nat) .operandFetch)
      else if m = .immediate then .error (.immediateWriteTarget s.pc k)
      else if ¬ s.Addressable k m then .error (.invalidAddress s.pc (some k) (s.target k m) .write)
      else .ok (s.target k m).toNat

/-! ## The instructions: encoding, faults, effect -/

/-- R102: Add. -/
def Obligations.AddExecutes : Prop :=
  ∀ (m1 m2 m3 : Mode) (s : State),
    decode (wordOf 1 m1 m2 m3) = .ok (.add m1 m2 m3) ∧
    (∀ f, firstFault (.add m1 m2 m3) s = some f → exec (.add m1 m2 m3) s = .next (s.raise f)) ∧
    (s.Readable .p1 m1 → s.Readable .p2 m2 → s.Writable .p3 m3 → s.HasRoom (s.dst .p3 m3) → s.pc + 4 ≤ maxAddr →
      exec (.add m1 m2 m3) s = .next { s with
        mem := s.mem.write (s.dst .p3 m3) (wrap64 ((s.operand .p1 m1).toInt + (s.operand .p2 m2).toInt))
        pc := s.pc + 4 })

/-- R103: Multiply. -/
def Obligations.MultiplyExecutes : Prop :=
  ∀ (m1 m2 m3 : Mode) (s : State),
    decode (wordOf 2 m1 m2 m3) = .ok (.multiply m1 m2 m3) ∧
    (∀ f, firstFault (.multiply m1 m2 m3) s = some f → exec (.multiply m1 m2 m3) s = .next (s.raise f)) ∧
    (s.Readable .p1 m1 → s.Readable .p2 m2 → s.Writable .p3 m3 → s.HasRoom (s.dst .p3 m3) → s.pc + 4 ≤ maxAddr →
      exec (.multiply m1 m2 m3) s = .next { s with
        mem := s.mem.write (s.dst .p3 m3) (wrap64 ((s.operand .p1 m1).toInt * (s.operand .p2 m2).toInt))
        pc := s.pc + 4 })

/-- R104: LessThan, signed, writing exactly 0 or 1. -/
def Obligations.LessThanExecutes : Prop :=
  ∀ (m1 m2 m3 : Mode) (s : State),
    decode (wordOf 7 m1 m2 m3) = .ok (.lessThan m1 m2 m3) ∧
    (∀ f, firstFault (.lessThan m1 m2 m3) s = some f → exec (.lessThan m1 m2 m3) s = .next (s.raise f)) ∧
    (s.Readable .p1 m1 → s.Readable .p2 m2 → s.Writable .p3 m3 → s.HasRoom (s.dst .p3 m3) → s.pc + 4 ≤ maxAddr →
      exec (.lessThan m1 m2 m3) s = .next { s with
        mem := s.mem.write (s.dst .p3 m3) (if (s.operand .p1 m1).toInt < (s.operand .p2 m2).toInt then 1 else 0)
        pc := s.pc + 4 })

/-- R105: Equals, writing exactly 0 or 1. -/
def Obligations.EqualsExecutes : Prop :=
  ∀ (m1 m2 m3 : Mode) (s : State),
    decode (wordOf 8 m1 m2 m3) = .ok (.equals m1 m2 m3) ∧
    (∀ f, firstFault (.equals m1 m2 m3) s = some f → exec (.equals m1 m2 m3) s = .next (s.raise f)) ∧
    (s.Readable .p1 m1 → s.Readable .p2 m2 → s.Writable .p3 m3 → s.HasRoom (s.dst .p3 m3) → s.pc + 4 ≤ maxAddr →
      exec (.equals m1 m2 m3) s = .next { s with
        mem := s.mem.write (s.dst .p3 m3) (if (s.operand .p1 m1).toInt = (s.operand .p2 m2).toInt then 1 else 0)
        pc := s.pc + 4 })

/-- R120: Input stores the oldest unread input, or blocks and writes RS alone; its write operand is checked first. -/
def Obligations.InputExecutes : Prop :=
  ∀ (m1 m2 m3 : Mode) (s : State),
    decode (wordOf 3 m1 m2 m3) = .ok (.input m1 m2 m3) ∧
    (∀ f, firstFault (.input m1 m2 m3) s = some f → exec (.input m1 m2 m3) s = .next (s.raise f)) ∧
    (∀ v, s.inQ[s.inCur]? = some v → s.Writable .p1 m1 → s.HasRoom (s.dst .p1 m1) → s.pc + 2 ≤ maxAddr →
      exec (.input m1 m2 m3) s = .next { s with
        mem := s.mem.write (s.dst .p1 m1) v
        inCur := s.inCur + 1
        pc := s.pc + 2 }) ∧
    (s.inCur = s.inQ.length → s.Writable .p1 m1 →
      exec (.input m1 m2 m3) s = .next { s with rs := .waitingForInput })

/-- R121: Output. -/
def Obligations.OutputExecutes : Prop :=
  ∀ (m1 m2 m3 : Mode) (s : State),
    decode (wordOf 4 m1 m2 m3) = .ok (.output m1 m2 m3) ∧
    (∀ f, firstFault (.output m1 m2 m3) s = some f → exec (.output m1 m2 m3) s = .next (s.raise f)) ∧
    (s.Readable .p1 m1 → s.config.outCapacity ≠ some s.outQ.length → s.pc + 2 ≤ maxAddr →
      exec (.output m1 m2 m3) s = .next { s with
        outQ := s.outQ ++ [s.operand .p1 m1]
        pc := s.pc + 2 })

/-- R140: JumpIfTrue, taken and not taken; its target operand resolves in both cases. -/
def Obligations.JumpIfTrueExecutes : Prop :=
  ∀ (m1 m2 m3 : Mode) (s : State),
    decode (wordOf 5 m1 m2 m3) = .ok (.jumpIfTrue m1 m2 m3) ∧
    (∀ f, firstFault (.jumpIfTrue m1 m2 m3) s = some f → exec (.jumpIfTrue m1 m2 m3) s = .next (s.raise f)) ∧
    (s.Readable .p1 m1 → s.Readable .p2 m2 → s.operand .p1 m1 ≠ 0 → 0 ≤ (s.operand .p2 m2).toInt →
      exec (.jumpIfTrue m1 m2 m3) s = .next { s with pc := (s.operand .p2 m2).toInt.toNat }) ∧
    (s.Readable .p1 m1 → s.Readable .p2 m2 → s.operand .p1 m1 = 0 → s.pc + 3 ≤ maxAddr →
      exec (.jumpIfTrue m1 m2 m3) s = .next { s with pc := s.pc + 3 })

/-- R141: JumpIfFalse, taken and not taken. -/
def Obligations.JumpIfFalseExecutes : Prop :=
  ∀ (m1 m2 m3 : Mode) (s : State),
    decode (wordOf 6 m1 m2 m3) = .ok (.jumpIfFalse m1 m2 m3) ∧
    (∀ f, firstFault (.jumpIfFalse m1 m2 m3) s = some f → exec (.jumpIfFalse m1 m2 m3) s = .next (s.raise f)) ∧
    (s.Readable .p1 m1 → s.Readable .p2 m2 → s.operand .p1 m1 = 0 → 0 ≤ (s.operand .p2 m2).toInt →
      exec (.jumpIfFalse m1 m2 m3) s = .next { s with pc := (s.operand .p2 m2).toInt.toNat }) ∧
    (s.Readable .p1 m1 → s.Readable .p2 m2 → s.operand .p1 m1 ≠ 0 → s.pc + 3 ≤ maxAddr →
      exec (.jumpIfFalse m1 m2 m3) s = .next { s with pc := s.pc + 3 })

/-- R160: RelativeBaseOffset adds its operand, resolved with the old RB, to RB, which faults where the sum is no Word. -/
def Obligations.RelativeBaseOffsetExecutes : Prop :=
  ∀ (m1 m2 m3 : Mode) (s : State),
    decode (wordOf 9 m1 m2 m3) = .ok (.relativeBaseOffset m1 m2 m3) ∧
    (∀ f, firstFault (.relativeBaseOffset m1 m2 m3) s = some f →
      exec (.relativeBaseOffset m1 m2 m3) s = .next (s.raise f)) ∧
    (∀ nb : Word, s.Readable .p1 m1 → nb.toInt = s.rb.toInt + (s.operand .p1 m1).toInt → s.pc + 2 ≤ maxAddr →
      exec (.relativeBaseOffset m1 m2 m3) s = .next { s with
        rb := nb
        pc := s.pc + 2 })

/-- R161: Halt, with any modes and at any pc, writes RS alone. R223 clears BUSY after the loop; that the step which executes
Halt already does so is the model's choice (notes/assumptions/3.md). -/
def Obligations.HaltExecutes : Prop :=
  ∀ (m1 m2 m3 : Mode) (s : State),
    decode (wordOf 99 m1 m2 m3) = .ok (.halt m1 m2 m3) ∧
    exec (.halt m1 m2 m3) s = .next { s with rs := .halted } ∧
    (s.CanStep → decode (s.mem.read s.pc) = .ok (.halt m1 m2 m3) →
      step s = .next { s with rs := .halted, busy := false })

/-! ## Frames: what an instruction leaves unchanged -/

/-- FAULT and BUSY after an instruction: unchanged, but where it reports its first fault. -/
def Obligations.InstructionKeepsFaultAndBusy : Prop :=
  ∀ (i : Instr) (s t : State), exec i s = .next t →
    (firstFault i s = none → t.fault = s.fault ∧ t.busy = s.busy) ∧
    (∀ f, firstFault i s = some f → t.fault = some (s.fault.getD f) ∧ t.busy = false)

/-- Frame of Add, Multiply, LessThan and Equals: every register and queue but the pc stays, and every word of memory
outside the write operand's address, the extension's entries among them, reads as before. -/
def Obligations.AluFrame : Prop :=
  ∀ (m1 m2 m3 : Mode) (i : Instr) (s t : State),
    i ∈ [Instr.add m1 m2 m3, Instr.multiply m1 m2 m3, Instr.lessThan m1 m2 m3, Instr.equals m1 m2 m3] →
    exec i s = .next t →
      t.rb = s.rb ∧ t.rs = s.rs ∧ t.inQ = s.inQ ∧ t.inCur = s.inCur ∧ t.outQ = s.outQ ∧ t.outCur = s.outCur ∧
      t.config = s.config ∧ t.mem.size = s.mem.size ∧
      ∀ a, s.addressOf .p3 m3 ≠ .ok a → t.mem.read a = s.mem.read a ∧ (a ∈ t.mem.keys ↔ a ∈ s.mem.keys)

/-- Frame of Input: every register and queue but the pc, RS and IN_CUR stays; RS stays where an unread input exists, IN_CUR
and memory stay where none exists; every word outside the write operand's address reads as before. -/
def Obligations.InputFrame : Prop :=
  ∀ (m1 m2 m3 : Mode) (s t : State), exec (.input m1 m2 m3) s = .next t →
    t.rb = s.rb ∧ t.inQ = s.inQ ∧ t.outQ = s.outQ ∧ t.outCur = s.outCur ∧ t.config = s.config ∧
    t.mem.size = s.mem.size ∧ (s.HasInput → t.rs = s.rs) ∧
    (¬ s.HasInput → t.inCur = s.inCur ∧ t.mem = s.mem ∧ t.pc = s.pc) ∧
    ∀ a, s.addressOf .p1 m1 ≠ .ok a → t.mem.read a = s.mem.read a ∧ (a ∈ t.mem.keys ↔ a ∈ s.mem.keys)

/-- Frame of the instructions that store nothing: memory, the input queue and both read cursors stay; OUT stays but for
Output, RB but for RelativeBaseOffset, RS but for Halt, and Halt leaves the pc. -/
def Obligations.NonStoringFrame : Prop :=
  ∀ (m1 m2 m3 : Mode) (i : Instr) (s t : State),
    i ∈ [Instr.output m1 m2 m3, Instr.jumpIfTrue m1 m2 m3, Instr.jumpIfFalse m1 m2 m3,
      Instr.relativeBaseOffset m1 m2 m3, Instr.halt m1 m2 m3] →
    exec i s = .next t →
      t.mem = s.mem ∧ (∀ a, t.mem.read a = s.mem.read a) ∧ t.inQ = s.inQ ∧ t.inCur = s.inCur ∧
      t.outCur = s.outCur ∧ t.config = s.config ∧
      (i ≠ .output m1 m2 m3 → t.outQ = s.outQ) ∧
      (i ≠ .relativeBaseOffset m1 m2 m3 → t.rb = s.rb) ∧
      (i ≠ .halt m1 m2 m3 → t.rs = s.rs) ∧ (i = .halt m1 m2 m3 → t.pc = s.pc)

/-! ## Memory -/

/-- R47: a read of an address gives the value of the last write to it, or the initial value where there was none, in PRIM
and in EXT alike. -/
def Obligations.LastWriteIsRead : Prop :=
  ∀ (m : Memory) (writes : List (Nat × Word)) (a : Nat),
    (writes.foldl (fun m p => m.write p.1 p.2) m).read a =
      match (writes.filter (fun p => p.1 == a)).getLast? with
      | some p => p.2
      | none => m.read a

/-- R45: an address never written reads 0: above the constructed words, after any writes to other addresses. -/
def Obligations.NeverWrittenReadsZero : Prop :=
  ∀ (words : List Word) (writes : List (Nat × Word)) (a : Nat), words.length ≤ a → a ∉ writes.map Prod.fst →
    (writes.foldl (fun m p => m.write p.1 p.2) (⟨words, []⟩ : Memory)).read a = 0

/-- Right after Construct memory holds the words from address 0 on, and 0 everywhere else. -/
def Obligations.ConstructedMemoryReads : Prop :=
  ∀ (s : State) (words : List Word) (a : Nat), (s.constructed words).mem.read a = (words[a]?).getD 0

/-- R46: the split of memory into PRIM and EXT is invisible to programs where EXT_CAPACITY is unbounded: two states that
differ in it alone take steps, and answer host commands, to states that differ in it alone, with the same answers. -/
def Obligations.MemorySplitIsInvisible : Prop :=
  ∀ s t : State, FlatEq s t → s.config.extCapacity = none →
    (∀ s', step s = .next s' → ∃ t', step t = .next t' ∧ FlatEq s' t') ∧
    (∀ c a s', command c s = .done a s' → ∃ t', command c t = .done a t' ∧ FlatEq s' t')

/-! ## Invariants -/

/-- The state after reset has the invariants, with any capacities. -/
def Obligations.ResetHasInvariants : Prop :=
  ∀ c : Config, ({ State.reset with config := c } : State).Inv ∧ ({ State.reset with config := c } : State).WithinCapacity

/-- Every step keeps the invariants of R34, the canonical form of memory among them, and never leaves Halted. -/
def Obligations.StepKeepsInvariants : Prop :=
  ∀ s t : State, s.Inv → step s = .next t → t.Inv ∧ (s.rs = .halted → t.rs = .halted)

/-- Every host command keeps the invariants, and none but Construct leaves Halted. -/
def Obligations.CommandsKeepInvariants : Prop :=
  ∀ (c : Command) (a : Answer) (s t : State), s.Inv → command c s = .done a t →
    t.Inv ∧ (s.rs = .halted → (∃ words, c = .construct words) ∨ t.rs = .halted)

/-- R34: the invariants hold in every reachable state, and Halted is never left before the next Construct. -/
def Obligations.ReachableStatesHaveInvariants : Prop :=
  (∀ s : State, Reachable s → s.RuleInv) ∧
  (∀ s t : State, Reachable s → s.rs = .halted → Move s t →
    t.rs = .halted ∨ ∃ words, command (.construct words) s = .done .nothing t)

/-- No step and no command makes a store exceed its capacity. -/
def Obligations.CapacitiesHold : Prop :=
  (∀ s t : State, s.Inv → s.WithinCapacity → step s = .next t → t.WithinCapacity) ∧
  (∀ (c : Command) (a : Answer) (s t : State), s.WithinCapacity → command c s = .done a t → t.WithinCapacity)

/-- In a state with the invariants a step always answers a next state: the model never stops. That a step which is not
enabled, where R80 defines none, answers a next state too is the model's choice (notes/assumptions/3.md). -/
def Obligations.MachineNeverStops : Prop :=
  ∀ s : State, s.Inv → ∃ t, step s = .next t

/-! ## Whole-machine rules -/

/-- R32: IN and OUT only grow at their ends and the cursors never go back, but for Construct. -/
def Obligations.QueuesOnlyGrow : Prop :=
  ∀ s t : State, (step s = .next t ∨ ∃ c a, (∀ words, c ≠ Command.construct words) ∧ command c s = .done a t) →
    s.inQ <+: t.inQ ∧ s.outQ <+: t.outQ ∧ s.inCur ≤ t.inCur ∧ s.outCur ≤ t.outCur

/-- R216: in Halted no instruction executes (a step leaves every item but BUSY), no command but Construct leaves Halted,
and Construct replaces it. -/
def Obligations.HaltedIsTerminal : Prop :=
  ∀ s : State, s.rs = .halted →
    (∀ t, step s = .next t → t = { s with busy := t.busy }) ∧
    (∀ c a t, (∀ words, c ≠ Command.construct words) → command c s = .done a t → t.rs = .halted) ∧
    (∀ words, s.busy = false → words.length ≤ maxAddr + 1 →
      ∃ t, command (.construct words) s = .done .nothing t ∧ t.rs = .running)

/-- R211, R212: after a fault nothing executes (a step leaves every item but BUSY) and every command but Construct is
refused; Construct is accepted and clears FAULT. -/
def Obligations.FaultIsTerminal : Prop :=
  ∀ (s : State) (f : FaultInfo), s.fault = some f →
    (∀ t, step s = .next t → t = { s with busy := t.busy }) ∧
    (∀ c, (∀ words, c ≠ Command.construct words) → command c s = .refused) ∧
    (∀ words, s.busy = false → words.length ≤ maxAddr + 1 →
      ∃ t, command (.construct words) s = .done .nothing t ∧ t.fault = none)

/-- RB is adjusted only by RelativeBaseOffset, to the exact sum; and no command but Construct writes the pc, RB or memory. -/
def Obligations.RbChangesOnlyByOffset : Prop :=
  (∀ s t : State, step s = .next t → t.rb ≠ s.rb →
    ∃ m1 m2 m3, decode (s.mem.read s.pc) = .ok (.relativeBaseOffset m1 m2 m3) ∧
      t.rb.toInt = s.rb.toInt + (s.operand .p1 m1).toInt) ∧
  (∀ (c : Command) (a : Answer) (s t : State), (∀ words, c ≠ Command.construct words) → command c s = .done a t →
    t.pc = s.pc ∧ t.rb = s.rb ∧ t.mem = s.mem)

/-- R215: the run-state transitions of the engine and of the host, with the pc of each. A done PushInput that leaves no
fault has appended its value, and so wakes a blocked core. -/
def Obligations.RunStateTransitions : Prop :=
  (∀ (s t : State) (i : Instr), s.CanStep → decode (s.mem.read s.pc) = .ok i → firstFault i s = none →
    step s = .next t →
    (∀ m1 m2 m3, i = .input m1 m2 m3 → ¬ s.HasInput → t.rs = .waitingForInput ∧ t.pc = s.pc) ∧
    (∀ m1 m2 m3, i = .halt m1 m2 m3 → t.rs = .halted ∧ t.pc = s.pc) ∧
    ((∀ m1 m2 m3, i = .input m1 m2 m3 → s.HasInput) → (∀ m1 m2 m3, i ≠ .halt m1 m2 m3) →
      t.rs = .running ∧
      (∀ m1 m2 m3, i = .jumpIfTrue m1 m2 m3 ∧ s.operand .p1 m1 ≠ 0 ∨ i = .jumpIfFalse m1 m2 m3 ∧ s.operand .p1 m1 = 0 →
        (t.pc : Int) = (s.operand .p2 m2).toInt) ∧
      ((∀ m1 m2 m3, ¬ (i = .jumpIfTrue m1 m2 m3 ∧ s.operand .p1 m1 ≠ 0 ∨
          i = .jumpIfFalse m1 m2 m3 ∧ s.operand .p1 m1 = 0)) →
        t.pc = s.pc + (1 + i.paramCount)))) ∧
  (∀ s t : State, step s = .next t → ¬ s.CanStep ∨ t.fault ≠ none → t.rs = s.rs ∧ t.pc = s.pc) ∧
  (∀ (c : Command) (a : Answer) (s t : State), command c s = .done a t →
    (∀ words, c = .construct words → t.rs = .running ∧ t.pc = 0) ∧
    ((∀ words, c ≠ .construct words) →
      t.pc = s.pc ∧
      ((∃ v, c = .pushInput v) → s.rs = .waitingForInput → t.fault = none → t.rs = .running) ∧
      ((∀ v, c ≠ .pushInput v) ∨ s.rs ≠ .waitingForInput ∨ t.fault ≠ none → t.rs = s.rs)))

/-- The capacities never change (the model's choice to carry them in the state, notes/assumptions/2.md). -/
def Obligations.CapacitiesNeverChange : Prop :=
  ∀ s t : State, Move s t → t.config = s.config

/-! ## Host commands -/

/-- R250: Construct sets every item of the state; it is accepted whenever BUSY is 0, after a fault and after Halted too. -/
def Obligations.ConstructResetsEverything : Prop :=
  ∀ (s : State) (words : List Word), s.busy = false → words.length ≤ maxAddr + 1 →
    ∃ t, command (.construct words) s = .done .nothing t ∧
      t.pc = 0 ∧ t.rb = 0 ∧ t.rs = .running ∧ t.fault = none ∧ t.busy = false ∧ t.mem.size = words.length ∧
      t.mem.prim = words ∧ t.mem.ext = [] ∧ t.inQ = [] ∧ t.inCur = 0 ∧ t.outQ = [] ∧ t.outCur = 0

/-- R222: PushInput appends, and wakes a blocked core; on a full input queue it faults CapacityExceeded and appends
nothing. -/
def Obligations.PushInputAppends : Prop :=
  ∀ (s : State) (v : Word), s.busy = false → s.fault = none →
    command (.pushInput v) s = .done .nothing
      (if s.config.inCapacity = some s.inQ.length then
        { s with fault := some (.capacityExceeded none .inputQueue) }
      else if s.rs = .waitingForInput then { s with inQ := s.inQ ++ [v], rs := .running }
      else { s with inQ := s.inQ ++ [v] })

/-- R223 up to its loop: Run faults RunWhileHalted on a Halted core (R207), does nothing on a blocked one, and otherwise sets
BUSY. That the command is done once BUSY is set, its loop left to later steps, is the model's choice
(notes/assumptions/6.md). -/
def Obligations.RunStartsOrReturns : Prop :=
  ∀ s : State, s.busy = false → s.fault = none →
    (s.rs = .halted → command .run s = .done .nothing { s with fault := some .runWhileHalted }) ∧
    (s.rs = .waitingForInput → command .run s = .done .nothing s) ∧
    (s.rs = .running → command .run s = .done .nothing { s with busy := true })

/-- The loop of Run, from a state with the invariants: it ends exactly in a state that is Halted, blocked or faulted, with
BUSY 0; while it has not ended the core is Running with no fault; the model never stops in it; and more fuel does not
change an end that was reached. -/
def Obligations.RunEndsExactlyWhenStopped : Prop :=
  ∀ (s : State) (n : Nat), s.Inv → s.busy = true →
    ((∃ t, runLoop n s = .ended t ∧ t.busy = false ∧ (t.rs = .halted ∨ t.rs = .waitingForInput ∨ t.fault ≠ none) ∧
        ∀ k, runLoop (n + k) s = .ended t) ∨
      ∃ t, runLoop n s = .outOfFuel t ∧ t.busy = true ∧ t.rs = .running ∧ t.fault = none)

/-- R224 to R226: the output queries. HasOutput and LastOutput have no side effect, and GetOutput advances the cursor past
the element it returns. -/
def Obligations.OutputQueriesAnswer : Prop :=
  ∀ s : State, s.busy = false → s.fault = none → s.outCur ≤ s.outQ.length →
    (∃ b, command .hasOutput s = .done (.bool b) s ∧ (b = true ↔ s.outCur < s.outQ.length)) ∧
    (s.outCur = s.outQ.length → command .getOutput s = .done (.optWord none) s) ∧
    (∀ h : s.outCur < s.outQ.length,
      command .getOutput s = .done (.optWord (some s.outQ[s.outCur])) { s with outCur := s.outCur + 1 }) ∧
    (s.outQ = [] → command .lastOutput s = .done (.optWord none) s) ∧
    (∀ h : s.outQ.length - 1 < s.outQ.length,
      command .lastOutput s = .done (.optWord (some (s.outQ[s.outQ.length - 1]'h))) s)

/-- R227, R228: the run-state queries, with no side effect. -/
def Obligations.RunStateQueriesAnswer : Prop :=
  ∀ s : State, s.busy = false → s.fault = none →
    (∃ b, command .isHalted s = .done (.bool b) s ∧ (b = true ↔ s.rs = .halted)) ∧
    (∃ b, command .isHaltedOrBlocked s = .done (.bool b) s ∧ (b = true ↔ s.rs = .halted ∨ s.rs = .waitingForInput))

/-- R229: PeekMemory answers the Word at a valid address and is refused for every other integer; no side effect. -/
def Obligations.PeekMemoryReads : Prop :=
  ∀ (s : State) (a : Int), s.busy = false → s.fault = none →
    (0 ≤ a → a ≤ maxAddr → command (.peekMemory a) s = .done (.word (s.mem.read a.toNat)) s) ∧
    (a < 0 ∨ maxAddr < a → command (.peekMemory a) s = .refused)

/-- While a Run executes the host can issue no command. -/
def Obligations.BusyRefusesCommands : Prop :=
  ∀ (s : State) (c : Command), s.busy = true → command c s = .refused
end

