-- ==== Sys2Proof/Laws/State.lean ====
section
/-! SUPPORT. One lemma per field per update of State: what each named update does to each field. -/

namespace Sys2Proof.Machine

variable (s : State)

@[simp] theorem State.setPc_pc (a : Nat) : (s.setPc a).pc = a := rfl
@[simp] theorem State.setPc_rb (a : Nat) : (s.setPc a).rb = s.rb := rfl
@[simp] theorem State.setPc_rs (a : Nat) : (s.setPc a).rs = s.rs := rfl
@[simp] theorem State.setPc_fault (a : Nat) : (s.setPc a).fault = s.fault := rfl
@[simp] theorem State.setPc_busy (a : Nat) : (s.setPc a).busy = s.busy := rfl
@[simp] theorem State.setPc_mem (a : Nat) : (s.setPc a).mem = s.mem := rfl
@[simp] theorem State.setPc_inQ (a : Nat) : (s.setPc a).inQ = s.inQ := rfl
@[simp] theorem State.setPc_inCur (a : Nat) : (s.setPc a).inCur = s.inCur := rfl
@[simp] theorem State.setPc_outQ (a : Nat) : (s.setPc a).outQ = s.outQ := rfl
@[simp] theorem State.setPc_outCur (a : Nat) : (s.setPc a).outCur = s.outCur := rfl
@[simp] theorem State.setPc_config (a : Nat) : (s.setPc a).config = s.config := rfl

@[simp] theorem State.setRb_pc (v : Word) : (s.setRb v).pc = s.pc := rfl
@[simp] theorem State.setRb_rb (v : Word) : (s.setRb v).rb = v := rfl
@[simp] theorem State.setRb_rs (v : Word) : (s.setRb v).rs = s.rs := rfl
@[simp] theorem State.setRb_fault (v : Word) : (s.setRb v).fault = s.fault := rfl
@[simp] theorem State.setRb_busy (v : Word) : (s.setRb v).busy = s.busy := rfl
@[simp] theorem State.setRb_mem (v : Word) : (s.setRb v).mem = s.mem := rfl
@[simp] theorem State.setRb_inQ (v : Word) : (s.setRb v).inQ = s.inQ := rfl
@[simp] theorem State.setRb_inCur (v : Word) : (s.setRb v).inCur = s.inCur := rfl
@[simp] theorem State.setRb_outQ (v : Word) : (s.setRb v).outQ = s.outQ := rfl
@[simp] theorem State.setRb_outCur (v : Word) : (s.setRb v).outCur = s.outCur := rfl
@[simp] theorem State.setRb_config (v : Word) : (s.setRb v).config = s.config := rfl

@[simp] theorem State.setRs_pc (r : RunState) : (s.setRs r).pc = s.pc := rfl
@[simp] theorem State.setRs_rb (r : RunState) : (s.setRs r).rb = s.rb := rfl
@[simp] theorem State.setRs_rs (r : RunState) : (s.setRs r).rs = r := rfl
@[simp] theorem State.setRs_fault (r : RunState) : (s.setRs r).fault = s.fault := rfl
@[simp] theorem State.setRs_busy (r : RunState) : (s.setRs r).busy = s.busy := rfl
@[simp] theorem State.setRs_mem (r : RunState) : (s.setRs r).mem = s.mem := rfl
@[simp] theorem State.setRs_inQ (r : RunState) : (s.setRs r).inQ = s.inQ := rfl
@[simp] theorem State.setRs_inCur (r : RunState) : (s.setRs r).inCur = s.inCur := rfl
@[simp] theorem State.setRs_outQ (r : RunState) : (s.setRs r).outQ = s.outQ := rfl
@[simp] theorem State.setRs_outCur (r : RunState) : (s.setRs r).outCur = s.outCur := rfl
@[simp] theorem State.setRs_config (r : RunState) : (s.setRs r).config = s.config := rfl

@[simp] theorem State.setBusy_pc (b : Bool) : (s.setBusy b).pc = s.pc := rfl
@[simp] theorem State.setBusy_rb (b : Bool) : (s.setBusy b).rb = s.rb := rfl
@[simp] theorem State.setBusy_rs (b : Bool) : (s.setBusy b).rs = s.rs := rfl
@[simp] theorem State.setBusy_fault (b : Bool) : (s.setBusy b).fault = s.fault := rfl
@[simp] theorem State.setBusy_busy (b : Bool) : (s.setBusy b).busy = b := rfl
@[simp] theorem State.setBusy_mem (b : Bool) : (s.setBusy b).mem = s.mem := rfl
@[simp] theorem State.setBusy_inQ (b : Bool) : (s.setBusy b).inQ = s.inQ := rfl
@[simp] theorem State.setBusy_inCur (b : Bool) : (s.setBusy b).inCur = s.inCur := rfl
@[simp] theorem State.setBusy_outQ (b : Bool) : (s.setBusy b).outQ = s.outQ := rfl
@[simp] theorem State.setBusy_outCur (b : Bool) : (s.setBusy b).outCur = s.outCur := rfl
@[simp] theorem State.setBusy_config (b : Bool) : (s.setBusy b).config = s.config := rfl

@[simp] theorem State.store_pc (a : Nat) (v : Word) : (s.store a v).pc = s.pc := rfl
@[simp] theorem State.store_rb (a : Nat) (v : Word) : (s.store a v).rb = s.rb := rfl
@[simp] theorem State.store_rs (a : Nat) (v : Word) : (s.store a v).rs = s.rs := rfl
@[simp] theorem State.store_fault (a : Nat) (v : Word) : (s.store a v).fault = s.fault := rfl
@[simp] theorem State.store_busy (a : Nat) (v : Word) : (s.store a v).busy = s.busy := rfl
@[simp] theorem State.store_mem (a : Nat) (v : Word) : (s.store a v).mem = s.mem.write a v := rfl
@[simp] theorem State.store_inQ (a : Nat) (v : Word) : (s.store a v).inQ = s.inQ := rfl
@[simp] theorem State.store_inCur (a : Nat) (v : Word) : (s.store a v).inCur = s.inCur := rfl
@[simp] theorem State.store_outQ (a : Nat) (v : Word) : (s.store a v).outQ = s.outQ := rfl
@[simp] theorem State.store_outCur (a : Nat) (v : Word) : (s.store a v).outCur = s.outCur := rfl
@[simp] theorem State.store_config (a : Nat) (v : Word) : (s.store a v).config = s.config := rfl

@[simp] theorem State.consumeInput_pc : (s.consumeInput).pc = s.pc := rfl
@[simp] theorem State.consumeInput_rb : (s.consumeInput).rb = s.rb := rfl
@[simp] theorem State.consumeInput_rs : (s.consumeInput).rs = s.rs := rfl
@[simp] theorem State.consumeInput_fault : (s.consumeInput).fault = s.fault := rfl
@[simp] theorem State.consumeInput_busy : (s.consumeInput).busy = s.busy := rfl
@[simp] theorem State.consumeInput_mem : (s.consumeInput).mem = s.mem := rfl
@[simp] theorem State.consumeInput_inQ : (s.consumeInput).inQ = s.inQ := rfl
@[simp] theorem State.consumeInput_inCur : (s.consumeInput).inCur = s.inCur + 1 := rfl
@[simp] theorem State.consumeInput_outQ : (s.consumeInput).outQ = s.outQ := rfl
@[simp] theorem State.consumeInput_outCur : (s.consumeInput).outCur = s.outCur := rfl
@[simp] theorem State.consumeInput_config : (s.consumeInput).config = s.config := rfl

@[simp] theorem State.appendOutput_pc (v : Word) : (s.appendOutput v).pc = s.pc := rfl
@[simp] theorem State.appendOutput_rb (v : Word) : (s.appendOutput v).rb = s.rb := rfl
@[simp] theorem State.appendOutput_rs (v : Word) : (s.appendOutput v).rs = s.rs := rfl
@[simp] theorem State.appendOutput_fault (v : Word) : (s.appendOutput v).fault = s.fault := rfl
@[simp] theorem State.appendOutput_busy (v : Word) : (s.appendOutput v).busy = s.busy := rfl
@[simp] theorem State.appendOutput_mem (v : Word) : (s.appendOutput v).mem = s.mem := rfl
@[simp] theorem State.appendOutput_inQ (v : Word) : (s.appendOutput v).inQ = s.inQ := rfl
@[simp] theorem State.appendOutput_inCur (v : Word) : (s.appendOutput v).inCur = s.inCur := rfl
@[simp] theorem State.appendOutput_outQ (v : Word) : (s.appendOutput v).outQ = s.outQ ++ [v] := rfl
@[simp] theorem State.appendOutput_outCur (v : Word) : (s.appendOutput v).outCur = s.outCur := rfl
@[simp] theorem State.appendOutput_config (v : Word) : (s.appendOutput v).config = s.config := rfl

@[simp] theorem State.raise_pc (f : FaultInfo) : (s.raise f).pc = s.pc := rfl
@[simp] theorem State.raise_rb (f : FaultInfo) : (s.raise f).rb = s.rb := rfl
@[simp] theorem State.raise_rs (f : FaultInfo) : (s.raise f).rs = s.rs := rfl
@[simp] theorem State.raise_fault (f : FaultInfo) : (s.raise f).fault = some (s.fault.getD f) := rfl
@[simp] theorem State.raise_busy (f : FaultInfo) : (s.raise f).busy = false := rfl
@[simp] theorem State.raise_mem (f : FaultInfo) : (s.raise f).mem = s.mem := rfl
@[simp] theorem State.raise_inQ (f : FaultInfo) : (s.raise f).inQ = s.inQ := rfl
@[simp] theorem State.raise_inCur (f : FaultInfo) : (s.raise f).inCur = s.inCur := rfl
@[simp] theorem State.raise_outQ (f : FaultInfo) : (s.raise f).outQ = s.outQ := rfl
@[simp] theorem State.raise_outCur (f : FaultInfo) : (s.raise f).outCur = s.outCur := rfl
@[simp] theorem State.raise_config (f : FaultInfo) : (s.raise f).config = s.config := rfl

@[simp] theorem State.constructed_pc (ws : List Word) : (s.constructed ws).pc = 0 := rfl
@[simp] theorem State.constructed_rb (ws : List Word) : (s.constructed ws).rb = 0 := rfl
@[simp] theorem State.constructed_rs (ws : List Word) : (s.constructed ws).rs = .running := rfl
@[simp] theorem State.constructed_fault (ws : List Word) : (s.constructed ws).fault = none := rfl
@[simp] theorem State.constructed_busy (ws : List Word) : (s.constructed ws).busy = false := rfl
@[simp] theorem State.constructed_mem (ws : List Word) : (s.constructed ws).mem = ⟨ws, []⟩ := rfl
@[simp] theorem State.constructed_inQ (ws : List Word) : (s.constructed ws).inQ = [] := rfl
@[simp] theorem State.constructed_inCur (ws : List Word) : (s.constructed ws).inCur = 0 := rfl
@[simp] theorem State.constructed_outQ (ws : List Word) : (s.constructed ws).outQ = [] := rfl
@[simp] theorem State.constructed_outCur (ws : List Word) : (s.constructed ws).outCur = 0 := rfl
@[simp] theorem State.constructed_config (ws : List Word) : (s.constructed ws).config = s.config := rfl

end Sys2Proof.Machine
end

