-- ==== Sys2Proof/Laws/Memory.lean ====
section
/-! SUPPORT. Laws of memory: what a write does to every read, to the keys of EXT and to the canonical form. -/

namespace Sys2Proof.Machine

theorem lookupEntry_insertEntry (a b : Nat) (v : Word) (l : List (Nat × Word)) :
    lookupEntry b (insertEntry a v l) = if b = a then some v else lookupEntry b l := by
  induction l with
  | nil => simp [insertEntry, lookupEntry]
  | cons c rest ih =>
    obtain ⟨k, w⟩ := c
    simp only [insertEntry]
    split
    · simp [lookupEntry]
    · split
      · subst k
        simp only [lookupEntry]
        split <;> simp_all
      · simp only [lookupEntry, ih]
        split <;> split <;> simp_all

/-- What a read sees after a write. -/
theorem Memory.read_write (m : Memory) (a b : Nat) (v : Word) :
    (m.write a v).read b = if b = a then v else m.read b := by
  unfold Memory.write
  split
  · rename_i h
    simp only [Memory.read, Memory.size, List.length_set]
    by_cases hb : b = a
    · subst b
      simp_all [Memory.size]
    · simp only [hb, if_false, List.getD_eq_getElem?_getD, List.getElem?_set_ne (Ne.symm hb)]
  · rename_i h
    simp only [Memory.read, Memory.size, lookupEntry_insertEntry] at h ⊢
    by_cases hb : b = a
    · subst b
      simp [h]
    · simp [hb]

theorem mem_keys_insertEntry (a b : Nat) (v : Word) (l : List (Nat × Word)) :
    b ∈ (insertEntry a v l).map Prod.fst ↔ b = a ∨ b ∈ l.map Prod.fst := by
  induction l with
  | nil => simp [insertEntry]
  | cons c rest ih =>
    obtain ⟨k, w⟩ := c
    simp only [insertEntry]
    split
    · simp
    · split
      · subst k
        simp
      · simp only [List.map_cons, List.mem_cons, ih]
        tauto

theorem pairwise_keys_insertEntry (a : Nat) (v : Word) (l : List (Nat × Word))
    (h : (l.map Prod.fst).Pairwise (· < ·)) : ((insertEntry a v l).map Prod.fst).Pairwise (· < ·) := by
  induction l with
  | nil => simp [insertEntry]
  | cons c rest ih =>
    obtain ⟨k, w⟩ := c
    simp only [List.map_cons, List.pairwise_cons] at h
    simp only [insertEntry]
    split
    · rename_i hk
      simp only [List.map_cons, List.pairwise_cons]
      refine ⟨?_, h.1, h.2⟩
      intro b hb
      rcases List.mem_cons.1 hb with rfl | hb
      · exact hk
      · exact hk.trans (h.1 b hb)
    · split
      · subst k
        simp only [List.map_cons, List.pairwise_cons]
        exact h
      · rename_i hk hne
        simp only [List.map_cons, List.pairwise_cons]
        refine ⟨?_, ih h.2⟩
        intro b hb
        rcases (mem_keys_insertEntry a b v rest).1 hb with rfl | hb
        · omega
        · exact h.1 b hb

/-- In the canonical form a write to a listed address adds no entry, and a write to an unlisted one adds one. -/
theorem length_insertEntry (a : Nat) (v : Word) (l : List (Nat × Word)) (h : (l.map Prod.fst).Pairwise (· < ·)) :
    (insertEntry a v l).length = l.length + if a ∈ l.map Prod.fst then 0 else 1 := by
  induction l with
  | nil => simp [insertEntry]
  | cons c rest ih =>
    obtain ⟨k, w⟩ := c
    simp only [List.map_cons, List.pairwise_cons] at h
    simp only [insertEntry]
    split
    · rename_i hk
      have hn : a ∉ k :: rest.map Prod.fst := by
        intro hb
        rcases List.mem_cons.1 hb with rfl | hb
        · omega
        · exact absurd (h.1 a hb) (by omega)
      simp only [List.map_cons, hn, if_false, List.length_cons]
    · split
      · subst k
        simp
      · rename_i hk hne
        simp only [List.length_cons, ih h.2, List.map_cons, List.mem_cons, hne, false_or]
        omega

@[simp] theorem Memory.size_write (m : Memory) (a : Nat) (v : Word) : (m.write a v).size = m.size := by
  unfold Memory.write
  split <;> simp [Memory.size]

/-- The keys of EXT after a write. -/
theorem Memory.mem_keys_write (m : Memory) (a b : Nat) (v : Word) :
    b ∈ (m.write a v).keys ↔ (b = a ∧ m.size ≤ a) ∨ b ∈ m.keys := by
  unfold Memory.write
  split
  · rename_i h
    simp only [Memory.keys]
    constructor
    · exact Or.inr
    · rintro (⟨rfl, hb⟩ | hb)
      · omega
      · exact hb
  · rename_i h
    simp only [Memory.keys, mem_keys_insertEntry]
    have : m.size ≤ a := by omega
    tauto

/-- How many entries of EXT a write leaves. -/
theorem Memory.length_keys_write (m : Memory) (a : Nat) (v : Word) (h : m.wf) :
    (m.write a v).keys.length = m.keys.length + if m.size ≤ a ∧ a ∉ m.keys then 1 else 0 := by
  unfold Memory.write
  split
  · rename_i ha
    have : ¬ (m.size ≤ a ∧ a ∉ m.keys) := by omega
    rw [if_neg this]
    rfl
  · rename_i ha
    have ha' : m.size ≤ a := by omega
    simp only [Memory.keys, List.length_map, length_insertEntry a v m.ext h.2.1, ha', true_and]
    split <;> simp_all

/-- A write of an address keeps the canonical form. -/
theorem Memory.write_wf (m : Memory) (a : Nat) (v : Word) (h : m.wf) (ha : a ≤ maxAddr) : (m.write a v).wf := by
  refine ⟨by simpa using h.1, ?_, ?_⟩
  · unfold Memory.write
    split
    · exact h.2.1
    · exact pairwise_keys_insertEntry a v m.ext h.2.1
  · intro b hb
    rw [Memory.size_write]
    rcases (Memory.mem_keys_write m a b v).1 hb with ⟨rfl, hb⟩ | hb
    · exact ⟨hb, ha⟩
    · exact h.2.2 b hb

/-- The memory of a constructed core has the canonical form. -/
theorem Memory.constructed_wf (ws : List Word) (h : ws.length ≤ maxAddr + 1) : (⟨ws, []⟩ : Memory).wf := by
  refine ⟨h, ?_, ?_⟩ <;> simp [Memory.keys]

theorem State.reset_mem_wf : State.reset.mem.wf := Memory.constructed_wf [] (by simp)

end Sys2Proof.Machine
end

