-- ==== Sys2Proof/Laws/Ops.lean ====
section
/-! SUPPORT. Laws of the shared operations: for each, what it can answer. -/

namespace Sys2Proof.Machine

theorem validAddr_iff (a : Int) : validAddr a = true ↔ 0 ≤ a ∧ a ≤ maxAddr := by
  simp [validAddr]

theorem inWord_iff (x : Int) : inWord x = true ↔ -2 ^ 63 ≤ x ∧ x ≤ 2 ^ 63 - 1 := by
  simp [inWord]

theorem atCapacity_iff (n : Nat) (c : Option Nat) : atCapacity n c = true ↔ c = some n := by
  simp [atCapacity]

/-- The one way to bind a check: the first failing check is the answer. -/
theorem bind_ok_iff {ε α β : Type} (x : Except ε α) (f : α → Except ε β) (b : β) :
    (x >>= f) = .ok b ↔ ∃ a, x = .ok a ∧ f a = .ok b := by
  cases x <;> simp [bind, Except.bind]

theorem bind_error_iff {ε α β : Type} (x : Except ε α) (f : α → Except ε β) (e : ε) :
    (x >>= f) = .error e ↔ x = .error e ∨ ∃ a, x = .ok a ∧ f a = .error e := by
  cases x <;> simp [bind, Except.bind]

/-- A check that passes or raises. -/
theorem check_ok {ε α : Type} {c : Prop} [Decidable c] (x y : α) (e : ε) :
    (if c then Except.ok x else .error e) = .ok y ↔ c ∧ y = x := by
  by_cases h : c
  · simp only [h, if_true, Except.ok.injEq, true_and]
    exact eq_comm
  · simp [h]

theorem check_error {ε α : Type} {c : Prop} [Decidable c] (x : α) (e f : ε) :
    (if c then Except.ok x else .error e) = .error f ↔ ¬ c ∧ f = e := by
  by_cases h : c
  · simp [h]
  · simp only [h, if_false, Except.error.injEq, not_false_eq_true, true_and]
    exact eq_comm

/-- An instruction ends in a next state: its commit, or the fault its first failing check raised. -/
theorem State.finish_next (s t : State) (r : Except FaultInfo State) :
    s.finish r = .next t ↔ r = .ok t ∨ ∃ f, r = .error f ∧ t = s.raise f := by
  cases r with
  | ok u => simp [State.finish]
  | error f =>
    simp only [State.finish, Host.Outcome.next.injEq, reduceCtorEq, false_or, Except.error.injEq, exists_eq_left']
    exact eq_comm

theorem State.checkWrite_ok (s : State) (a : Nat) : s.checkWrite a = .ok () ↔ s.HasRoom a := by
  unfold State.checkWrite State.HasRoom
  split
  · rename_i h
    simp only [reduceCtorEq, false_iff]
    have := (atCapacity_iff _ _).1 h.2.2
    have h1 := h.1
    have h2 := h.2.1
    rintro (h' | h' | h')
    · omega
    · exact h2 h'
    · exact h' this
  · rename_i h
    simp only [true_iff]
    by_contra hn
    push Not at hn
    exact h ⟨hn.1, hn.2.1, (atCapacity_iff _ _).2 hn.2.2⟩

theorem State.checkWrite_error (s : State) (a : Nat) (f : FaultInfo) :
    s.checkWrite a = .error f ↔ ¬ s.HasRoom a ∧ f = .capacityExceeded (some s.pc) .extension := by
  rw [← State.checkWrite_ok]
  unfold State.checkWrite
  split <;> simp [eq_comm]

theorem State.nextIp_ok (s : State) (w n : Nat) : s.nextIp w = .ok n ↔ s.pc + w ≤ maxAddr ∧ n = s.pc + w := by
  unfold State.nextIp
  split
  · simp only [reduceCtorEq, false_iff]
    omega
  · simp only [Except.ok.injEq]
    omega

theorem State.nextIp_error (s : State) (w : Nat) (f : FaultInfo) :
    s.nextIp w = .error f ↔ maxAddr < s.pc + w ∧ f = .invalidAddress s.pc none (s.pc + w : Nat) .advance := by
  unfold State.nextIp
  split
  · rename_i h
    simp only [Except.error.injEq, h, true_and]
    exact eq_comm
  · rename_i h
    simp only [reduceCtorEq, h, false_and]

theorem State.checkOutput_ok (s : State) : s.checkOutput = .ok () ↔ s.config.outCapacity ≠ some s.outQ.length := by
  unfold State.checkOutput
  split <;> simp_all [atCapacity_iff]

theorem State.checkOutput_error (s : State) (f : FaultInfo) :
    s.checkOutput = .error f ↔
      s.config.outCapacity = some s.outQ.length ∧ f = .capacityExceeded (some s.pc) .outputQueue := by
  rw [← atCapacity_iff]
  unfold State.checkOutput
  split
  · rename_i h
    simp only [Except.error.injEq, h, true_and]
    exact eq_comm
  · rename_i h
    simp only [reduceCtorEq, h, Bool.false_eq_true, false_and]

/-- Every input the cursor can name is an unread one. -/
theorem State.nextInput_eq_none (s : State) : s.nextInput = none ↔ ¬ s.HasInput := by
  simp [State.nextInput]

end Sys2Proof.Machine
end

