-- ==== Sys2Proof/Laws/Operands.lean ====
section
/-! SUPPORT. Laws of the operand resolver: what each resolution can answer. -/

namespace Sys2Proof.Machine

variable (s : State) (k : Param)

theorem State.validAddr_param : validAddr (s.pc + k.index : Nat) = true ↔ s.Fetchable k := by
  rw [validAddr_iff]
  unfold State.Fetchable
  omega

theorem State.paramWord_ok (w : Word) : s.paramWord k = .ok w ↔ s.Fetchable k ∧ w = s.raw k := by
  rw [← s.validAddr_param k]
  exact check_ok _ _ _

theorem State.paramWord_error (f : FaultInfo) :
    s.paramWord k = .error f ↔
      ¬ s.Fetchable k ∧ f = .invalidAddress s.pc (some k) (s.pc + k.index : Nat) .operandFetch := by
  rw [← s.validAddr_param k]
  exact check_error _ _ _

theorem State.checkAddr_ok (kind : AddrKind) (a : Int) (n : Nat) :
    s.checkAddr k kind a = .ok n ↔ (0 ≤ a ∧ a ≤ maxAddr) ∧ n = a.toNat := by
  rw [← validAddr_iff]
  exact check_ok _ _ _

theorem State.checkAddr_error (kind : AddrKind) (a : Int) (f : FaultInfo) :
    s.checkAddr k kind a = .error f ↔ ¬ (0 ≤ a ∧ a ≤ maxAddr) ∧ f = .invalidAddress s.pc (some k) a kind := by
  rw [← validAddr_iff]
  exact check_error _ _ _

/-- A value operand resolves only where it is readable, and then to its value. -/
theorem State.valueOf_ok (m : Mode) (v : Word) (h : s.valueOf k m = .ok v) : s.Readable k m ∧ v = s.operand k m := by
  unfold State.valueOf at h
  obtain ⟨raw, hraw, h⟩ := (bind_ok_iff _ _ _).1 h
  obtain ⟨hf, rfl⟩ := (s.paramWord_ok k raw).1 hraw
  cases m with
  | immediate =>
    cases h
    exact ⟨⟨hf, .inl rfl⟩, rfl⟩
  | position =>
    obtain ⟨n, hn, h⟩ := (bind_ok_iff _ _ _).1 h
    obtain ⟨ha, rfl⟩ := (s.checkAddr_ok k _ _ n).1 hn
    cases h
    exact ⟨⟨hf, .inr ha⟩, rfl⟩
  | relative =>
    obtain ⟨n, hn, h⟩ := (bind_ok_iff _ _ _).1 h
    obtain ⟨ha, rfl⟩ := (s.checkAddr_ok k _ _ n).1 hn
    cases h
    exact ⟨⟨hf, .inr ha⟩, rfl⟩

/-- A write operand resolves only where it is writable, and then to its address. -/
theorem State.addressOf_ok (m : Mode) (d : Nat) (h : s.addressOf k m = .ok d) : s.Writable k m ∧ d = s.dst k m := by
  unfold State.addressOf at h
  obtain ⟨raw, hraw, h⟩ := (bind_ok_iff _ _ _).1 h
  obtain ⟨hf, rfl⟩ := (s.paramWord_ok k raw).1 hraw
  cases m with
  | immediate => cases h
  | position =>
    obtain ⟨ha, rfl⟩ := (s.checkAddr_ok k _ _ d).1 h
    exact ⟨⟨hf, by decide, ha⟩, rfl⟩
  | relative =>
    obtain ⟨ha, rfl⟩ := (s.checkAddr_ok k _ _ d).1 h
    exact ⟨⟨hf, by decide, ha⟩, rfl⟩

/-- The address a write operand resolves to is an address of the memory. -/
theorem State.addressOf_le (m : Mode) (d : Nat) (h : s.addressOf k m = .ok d) : d ≤ maxAddr := by
  obtain ⟨hw, rfl⟩ := s.addressOf_ok k m d h
  have := hw.2.2.2
  unfold State.dst
  omega

end Sys2Proof.Machine
end

