-- ==== Sys2Proof/Laws/Meanings.lean ====
section
/-! SUPPORT. Laws of the shared commits and of the step: for each, what holds where it answers a next state. -/

namespace Sys2Proof.Machine

variable {s t : State}

/-- Where the ALU datapath commits, every operand resolved and one Word was stored. -/
theorem aluCommit_ok {f : Word → Word → Word} {m1 m2 m3 : Mode} (h : aluCommit f m1 m2 m3 s = .ok t) :
    ∃ a b d, s.valueOf .p1 m1 = .ok a ∧ s.valueOf .p2 m2 = .ok b ∧ s.addressOf .p3 m3 = .ok d ∧
      s.HasRoom d ∧ s.pc + 4 ≤ maxAddr ∧ t = { s with mem := s.mem.write d (f a b), pc := s.pc + 4 } := by
  unfold aluCommit at h
  obtain ⟨a, ha, h⟩ := (bind_ok_iff _ _ _).1 h
  obtain ⟨b, hb, h⟩ := (bind_ok_iff _ _ _).1 h
  obtain ⟨d, hd, h⟩ := (bind_ok_iff _ _ _).1 h
  obtain ⟨_, hr, h⟩ := (bind_ok_iff _ _ _).1 h
  obtain ⟨n, hn, h⟩ := (bind_ok_iff _ _ _).1 h
  obtain ⟨hp, rfl⟩ := (s.nextIp_ok 4 n).1 hn
  cases h
  exact ⟨a, b, d, ha, hb, hd, (s.checkWrite_ok d).1 hr, hp, rfl⟩

/-- Where Input commits, its write operand resolved, and it either blocked or stored one unread input. -/
theorem inputCommit_ok {m1 : Mode} (h : inputCommit m1 s = .ok t) :
    ∃ d, s.addressOf .p1 m1 = .ok d ∧
      ((s.nextInput = none ∧ t = { s with rs := .waitingForInput }) ∨
        ∃ v, s.nextInput = some v ∧ s.HasRoom d ∧ s.pc + 2 ≤ maxAddr ∧
          t = { s with mem := s.mem.write d v, inCur := s.inCur + 1, pc := s.pc + 2 }) := by
  unfold inputCommit at h
  obtain ⟨d, hd, h⟩ := (bind_ok_iff _ _ _).1 h
  refine ⟨d, hd, ?_⟩
  cases hi : s.nextInput with
  | none =>
    rw [hi] at h
    cases h
    exact .inl ⟨rfl, rfl⟩
  | some v =>
    rw [hi] at h
    obtain ⟨_, hr, h⟩ := (bind_ok_iff _ _ _).1 h
    obtain ⟨n, hn, h⟩ := (bind_ok_iff _ _ _).1 h
    obtain ⟨hp, rfl⟩ := (s.nextIp_ok 2 n).1 hn
    cases h
    exact .inr ⟨v, rfl, (s.checkWrite_ok d).1 hr, hp, rfl⟩

/-- Where Output commits, its operand resolved and its value was appended. -/
theorem outputCommit_ok {m1 : Mode} (h : outputCommit m1 s = .ok t) :
    ∃ v, s.valueOf .p1 m1 = .ok v ∧ s.config.outCapacity ≠ some s.outQ.length ∧ s.pc + 2 ≤ maxAddr ∧
      t = { s with outQ := s.outQ ++ [v], pc := s.pc + 2 } := by
  unfold outputCommit at h
  obtain ⟨v, hv, h⟩ := (bind_ok_iff _ _ _).1 h
  obtain ⟨_, hr, h⟩ := (bind_ok_iff _ _ _).1 h
  obtain ⟨n, hn, h⟩ := (bind_ok_iff _ _ _).1 h
  obtain ⟨hp, rfl⟩ := (s.nextIp_ok 2 n).1 hn
  cases h
  exact ⟨v, hv, s.checkOutput_ok.1 hr, hp, rfl⟩

/-- Where a conditional jump commits, both operands resolved and the pc alone was written, with an address. -/
theorem jumpCommit_ok {taken : Word → Bool} {m1 m2 : Mode} (h : jumpCommit taken m1 m2 s = .ok t) :
    ∃ c w, s.valueOf .p1 m1 = .ok c ∧ s.valueOf .p2 m2 = .ok w ∧
      ((taken c = true ∧ 0 ≤ w.toInt ∧ t = { s with pc := w.toInt.toNat }) ∨
        (taken c = false ∧ s.pc + 3 ≤ maxAddr ∧ t = { s with pc := s.pc + 3 })) := by
  unfold jumpCommit at h
  obtain ⟨c, hc, h⟩ := (bind_ok_iff _ _ _).1 h
  obtain ⟨w, hw, h⟩ := (bind_ok_iff _ _ _).1 h
  obtain ⟨n, hn, h⟩ := (bind_ok_iff _ _ _).1 h
  cases h
  refine ⟨c, w, hc, hw, ?_⟩
  cases ht : taken c with
  | true =>
    simp only [ht, State.jumpOrAdvance, if_true, State.jumpTarget] at hn
    split at hn
    · cases hn
    · cases hn
      exact .inl ⟨rfl, by omega, rfl⟩
  | false =>
    simp only [ht, State.jumpOrAdvance, Bool.false_eq_true, if_false] at hn
    obtain ⟨hp, rfl⟩ := (s.nextIp_ok 3 n).1 hn
    exact .inr ⟨rfl, hp, rfl⟩

/-- Where RelativeBaseOffset commits, its operand resolved and RB took the sum, a Word. -/
theorem relativeBaseCommit_ok {m1 : Mode} (h : relativeBaseCommit m1 s = .ok t) :
    ∃ k, s.valueOf .p1 m1 = .ok k ∧ inWord (s.rb.toInt + k.toInt) = true ∧ s.pc + 2 ≤ maxAddr ∧
      t = { s with rb := wrap64 (s.rb.toInt + k.toInt), pc := s.pc + 2 } := by
  unfold relativeBaseCommit at h
  obtain ⟨k, hk, h⟩ := (bind_ok_iff _ _ _).1 h
  obtain ⟨nb, hb, h⟩ := (bind_ok_iff _ _ _).1 h
  obtain ⟨n, hn, h⟩ := (bind_ok_iff _ _ _).1 h
  obtain ⟨hp, rfl⟩ := (s.nextIp_ok 2 n).1 hn
  cases h
  unfold State.offsetRb at hb
  split at hb
  · rename_i hw
    cases hb
    exact ⟨k, hk, hw, hp, rfl⟩
  · cases hb

/-! The dispatcher, one equation per instruction. -/

theorem exec_add (m1 m2 m3 : Mode) : exec (.add m1 m2 m3) s = s.finish (aluCommit aluSum m1 m2 m3 s) := rfl
theorem exec_multiply (m1 m2 m3 : Mode) : exec (.multiply m1 m2 m3) s = s.finish (aluCommit aluProduct m1 m2 m3 s) := rfl
theorem exec_lessThan (m1 m2 m3 : Mode) : exec (.lessThan m1 m2 m3) s = s.finish (aluCommit aluLess m1 m2 m3 s) := rfl
theorem exec_equals (m1 m2 m3 : Mode) : exec (.equals m1 m2 m3) s = s.finish (aluCommit aluEqual m1 m2 m3 s) := rfl
theorem exec_input (m1 m2 m3 : Mode) : exec (.input m1 m2 m3) s = s.finish (inputCommit m1 s) := rfl
theorem exec_output (m1 m2 m3 : Mode) : exec (.output m1 m2 m3) s = s.finish (outputCommit m1 s) := rfl
theorem exec_jumpIfTrue (m1 m2 m3 : Mode) :
    exec (.jumpIfTrue m1 m2 m3) s = s.finish (jumpCommit conditionHolds m1 m2 s) := rfl
theorem exec_jumpIfFalse (m1 m2 m3 : Mode) :
    exec (.jumpIfFalse m1 m2 m3) s = s.finish (jumpCommit (fun c => !conditionHolds c) m1 m2 s) := rfl
theorem exec_relativeBaseOffset (m1 m2 m3 : Mode) :
    exec (.relativeBaseOffset m1 m2 m3) s = s.finish (relativeBaseCommit m1 s) := rfl
theorem exec_halt (m1 m2 m3 : Mode) : exec (.halt m1 m2 m3) s = .next (s.setRs .halted) := rfl

theorem State.enabled_iff (s : State) : s.enabled = true ↔ s.busy = true ∧ s.rs = .running ∧ s.fault = none := by
  simp [State.enabled, and_assoc]

/-- Everything a step can do, where it answers a next state. -/
theorem step_cases (h : step s = .next t) :
    (s.enabled = false ∧ t = s.endRunUnlessEnabled) ∨
      (s.enabled = true ∧ s.pc ≤ maxAddr ∧
        ((∃ e, decode s.fetch = .error e ∧ t = s.raise (decodeFault s.pc s.fetch e)) ∨
          ∃ i u, decode s.fetch = .ok i ∧ exec i s = .next u ∧ t = u.endRunUnlessEnabled)) := by
  unfold step engineStep at h
  split at h
  · rename_i he
    split at h
    · rename_i hp
      refine .inr ⟨he, hp, ?_⟩
      split at h
      · rename_i i hi
        unfold endOfStep at h
        split at h
        · rename_i u hu
          cases h
          exact .inr ⟨i, u, hi, hu, rfl⟩
        · cases h
        · cases h
      · rename_i e he
        cases h
        exact .inl ⟨e, he, rfl⟩
    · cases h
  · rename_i he
    cases h
    exact .inl ⟨by simpa using he, rfl⟩

end Sys2Proof.Machine
end

