-- ==== Sys2Proof/Laws/PerInstr.lean ====
section
/-! SUPPORT. What holds of every instruction as syntax, one lemma per constructor. -/

namespace Sys2Proof.Laws

/-- The encoding of an instruction is a non-negative Word of at most five digits whose two low digits name its operation
(spec/30_encoding.md R61, R63, R69). -/
def CanonicalWord.Statement (i : Instr) : Prop :=
  0 ≤ (encode i).toInt ∧ (encode i).toNat < 100000 ∧
    ∃ operation m1 m2 m3, operationOf ((encode i).toNat % 100) = some operation ∧ i = operation m1 m2 m3

/-- The value of a canonical word: no digit overlaps another. -/
theorem wordOf_toNat (n : Nat) (h : n < 100) (m1 m2 m3 : Mode) :
    (wordOf n m1 m2 m3).toNat = n + 100 * m1.toDigit + 1000 * m2.toDigit + 10000 * m3.toDigit := by
  have bound : ∀ m : Mode, m.toDigit ≤ 2 := by rintro (_ | _ | _) <;> decide
  have h1 := bound m1
  have h2 := bound m2
  have h3 := bound m3
  unfold wordOf
  rw [BitVec.toNat_ofNat]
  omega

theorem wordOf_bounds (n : Nat) (h : n < 100) (m1 m2 m3 : Mode) :
    0 ≤ (wordOf n m1 m2 m3).toInt ∧ (wordOf n m1 m2 m3).toNat < 100000 ∧ (wordOf n m1 m2 m3).toNat % 100 = n := by
  have bound : ∀ m : Mode, m.toDigit ≤ 2 := by rintro (_ | _ | _) <;> decide
  have h1 := bound m1
  have h2 := bound m2
  have h3 := bound m3
  have hv := wordOf_toNat n h m1 m2 m3
  refine ⟨?_, by omega, by omega⟩
  rw [BitVec.toInt_eq_toNat_cond]
  split <;> omega

/-- The instruction an operation of the table makes has a canonical word. -/
theorem canonicalWord_of (n : Nat) (h : n < 100) (operation : Mode → Mode → Mode → Instr)
    (ho : operationOf n = some operation) (m1 m2 m3 : Mode) (he : encode (operation m1 m2 m3) = wordOf n m1 m2 m3) :
    CanonicalWord.Statement (operation m1 m2 m3) := by
  obtain ⟨h1, h2, h3⟩ := wordOf_bounds n h m1 m2 m3
  unfold CanonicalWord.Statement
  rw [he, h3]
  exact ⟨h1, h2, operation, m1, m2, m3, ho, rfl⟩

theorem CanonicalWord.add (m1 m2 m3 : Mode) : CanonicalWord.Statement (.add m1 m2 m3) :=
  canonicalWord_of 1 (by decide) .add rfl m1 m2 m3 rfl

theorem CanonicalWord.multiply (m1 m2 m3 : Mode) : CanonicalWord.Statement (.multiply m1 m2 m3) :=
  canonicalWord_of 2 (by decide) .multiply rfl m1 m2 m3 rfl

theorem CanonicalWord.input (m1 m2 m3 : Mode) : CanonicalWord.Statement (.input m1 m2 m3) :=
  canonicalWord_of 3 (by decide) .input rfl m1 m2 m3 rfl

theorem CanonicalWord.output (m1 m2 m3 : Mode) : CanonicalWord.Statement (.output m1 m2 m3) :=
  canonicalWord_of 4 (by decide) .output rfl m1 m2 m3 rfl

theorem CanonicalWord.jumpIfTrue (m1 m2 m3 : Mode) : CanonicalWord.Statement (.jumpIfTrue m1 m2 m3) :=
  canonicalWord_of 5 (by decide) .jumpIfTrue rfl m1 m2 m3 rfl

theorem CanonicalWord.jumpIfFalse (m1 m2 m3 : Mode) : CanonicalWord.Statement (.jumpIfFalse m1 m2 m3) :=
  canonicalWord_of 6 (by decide) .jumpIfFalse rfl m1 m2 m3 rfl

theorem CanonicalWord.lessThan (m1 m2 m3 : Mode) : CanonicalWord.Statement (.lessThan m1 m2 m3) :=
  canonicalWord_of 7 (by decide) .lessThan rfl m1 m2 m3 rfl

theorem CanonicalWord.equals (m1 m2 m3 : Mode) : CanonicalWord.Statement (.equals m1 m2 m3) :=
  canonicalWord_of 8 (by decide) .equals rfl m1 m2 m3 rfl

theorem CanonicalWord.relativeBaseOffset (m1 m2 m3 : Mode) : CanonicalWord.Statement (.relativeBaseOffset m1 m2 m3) :=
  canonicalWord_of 9 (by decide) .relativeBaseOffset rfl m1 m2 m3 rfl

theorem CanonicalWord.halt (m1 m2 m3 : Mode) : CanonicalWord.Statement (.halt m1 m2 m3) :=
  canonicalWord_of 99 (by decide) .halt rfl m1 m2 m3 rfl

end Sys2Proof.Laws
end

