-- ==== Sys2Proof/Tests/Slice0.lean ====
section
/-! SUPPORT. Tests with expected results from spec/95_test_vectors.md and the examples of the instruction rules, a smoke
test of WellFormed, and for each statement with hypotheses a witness that meets them. -/

namespace Sys2Proof.Tests

open Sys2Proof.Machine

/-- A Run in progress on the given program, just constructed. -/
def load (words : List Word) : State := { State.reset.constructed words with busy := true }

/-- The next state of an outcome, if it is one. -/
def after : Outcome → Option State
  | .next t => some t
  | .fault _ => none
  | .refused _ => none

/-- The state a command leaves, if it is done. -/
def left : CommandResult → Option State
  | .done _ t => some t
  | .refused => none

def min64 : Word := -9223372036854775808
def max64 : Word := 9223372036854775807

theorem runs {o : Outcome} (h : (after o).isSome = true) : ∃ t, o = .next t := by
  cases o with
  | next t => exact ⟨t, rfl⟩
  | fault _ => cases h
  | refused _ => cases h

theorem done {r : CommandResult} (h : (left r).isSome = true) : ∃ a t, r = .done a t := by
  cases r with
  | done a t => exact ⟨a, t, rfl⟩
  | refused => cases h

theorem runs_to {o : Outcome} {p : State → Prop} [DecidablePred p] (h : (after o).any (fun t => decide (p t)) = true) :
    ∃ t, o = .next t ∧ p t := by
  cases o with
  | next t => exact ⟨t, rfl, by simpa [after] using h⟩
  | fault _ => cases h
  | refused _ => cases h

/-! ## WellFormed: an Immediate write parameter is refused, at each place one can stand -/

theorem test_wellFormed_accepts : (Instr.add .immediate .immediate .relative).wellFormed = true := by decide
theorem test_wellFormed_refuses_immediate_p3 : (Instr.add .position .position .immediate).wellFormed = false := by decide
theorem test_wellFormed_refuses_immediate_p1 : (Instr.input .immediate .position .position).wellFormed = false := by decide
theorem test_wellFormed_unused_mode : (Instr.output .position .position .immediate).wellFormed = true := by decide

/-! ## Decoder: words of 95_test_vectors.md section 2.1 and of the instruction rules, digit by digit -/

theorem test_decode_add : decode 21201 = .ok (.add .relative .immediate .relative) := by rfl
theorem test_decode_add_high_digit : decode 100001 = .ok (.add .position .position .position) := by rfl
theorem test_decode_multiply : decode 21202 = .ok (.multiply .relative .immediate .relative) := by rfl
theorem test_decode_input : decode 203 = .ok (.input .relative .position .position) := by rfl
theorem test_decode_output : decode 104 = .ok (.output .immediate .position .position) := by rfl
theorem test_decode_jumpIfTrue : decode 1005 = .ok (.jumpIfTrue .position .immediate .position) := by rfl
theorem test_decode_jumpIfFalse : decode 1106 = .ok (.jumpIfFalse .immediate .immediate .position) := by rfl
theorem test_decode_lessThan : decode 1107 = .ok (.lessThan .immediate .immediate .position) := by rfl
theorem test_decode_equals : decode 1008 = .ok (.equals .position .immediate .position) := by rfl
theorem test_decode_relativeBaseOffset : decode 209 = .ok (.relativeBaseOffset .relative .position .position) := by rfl
theorem test_decode_halt : decode 20099 = .ok (.halt .position .position .relative) := by rfl
theorem test_decode_immediate_write : decode 11101 = .ok (.add .immediate .immediate .immediate) := by rfl
theorem test_decode_zero : decode 0 = .error .unknownOpcode := by rfl
theorem test_decode_98 : decode 98 = .error .unknownOpcode := by rfl
theorem test_decode_opcode_before_mode : decode 398 = .error .unknownOpcode := by rfl
theorem test_decode_negative : decode (-99) = .error .unknownOpcode := by rfl
theorem test_decode_mode1 : decode 301 = .error (.unknownMode .p1) := by rfl
theorem test_decode_mode2 : decode 3001 = .error (.unknownMode .p2) := by rfl
theorem test_decode_mode3_unused : decode 30004 = .error (.unknownMode .p3) := by rfl
/-- The operands of the example of R84, with the instruction word that R61 and R79 give them (notes/assumptions/10.md). -/
theorem test_encode_listing : encodeWords (.add .relative .immediate .position) [3, -1, 7] = [1201, 3, -1, 7] := by decide
theorem test_encode_modes : encode (.add .relative .immediate .relative) = 21201 := by decide

/-! ## The host's two questions, on the opcodes of the table -/

theorem test_table_words : decodeTableWord 64 1 = some (.add .position .position .position) ∧
    decodeTableWord 8 99 = some (.halt .position .position .position) ∧ decodeTableWord 64 0 = none := by decide

/-- Every row of the table, with operand words 0, runs as the first instruction after reset without a fault. -/
theorem test_table_words_run : [1, 2, 3, 4, 5, 6, 7, 8, 9, 99].all (fun w =>
    ((after (step (State.reset.withFetchWord 64 w))).map State.fault) == some none) = true := by decide

/-! ## Instructions: one step each -/

/-- 2.3: MAX + 1 = MIN. -/
theorem test_add_wraps :
    (after (step (load [1101, max64, 1, 4, 99]))).map (fun t => (t.mem.read 4, t.pc)) = some (min64, 4) := by decide
/-- Further ALU vectors: source and destination the same word, read before the write. -/
theorem test_add_own_word : (after (step (load [22201, 0, 0, 0, 99]))).map (·.mem.read 0) = some 44402 := by decide
/-- 2.3: the low 64 bits of a product. -/
theorem test_multiply_wraps : (after (step (load [1102, 3037000500, 3037000500, 4, 99]))).map (·.mem.read 4) =
    some (-9223372036709301616) := by decide
/-- The example of R103. -/
theorem test_multiply_position : (after (step (load [1002, 4, 3, 4, 33]))).map (fun t => (t.mem.read 4, t.pc)) =
    some (99, 4) := by decide
/-- 2.3: signed, not unsigned. -/
theorem test_lessThan_signed : (after (step (load [1107, -1, 0, 4, 99]))).map (·.mem.read 4) = some 1 := by decide
theorem test_lessThan_order : (after (step (load [1107, max64, min64, 4, 99]))).map (·.mem.read 4) = some 0 := by decide
theorem test_equals_yes : (after (step (load [1108, 8, 8, 5, 99, 7]))).map (fun t => (t.mem.read 5, t.pc)) =
    some (1, 4) := by decide
theorem test_equals_no : (after (step (load [1108, min64, max64, 4, 99]))).map (·.mem.read 4) = some 0 := by decide
/-- The example of R120. -/
theorem test_input_reads : (after (step { load [3, 0, 4, 0, 99] with inQ := [42] })).map
    (fun t => (t.mem.read 0, t.inCur, t.pc)) = some (42, 1, 2) := by decide
/-- P5: a blocking Input writes RS alone and ends the Run. -/
theorem test_input_blocks : (after (step (load [3, 0, 4, 0, 99]))).map (fun t => (t.rs, t.pc, t.mem, t.busy)) =
    some (.waitingForInput, 0, ⟨[3, 0, 4, 0, 99], []⟩, false) := by decide
/-- 2.4: Relative mode. -/
theorem test_output_relative : (after (step { load [204, 0, 99] with rb := 2 })).map (fun t => (t.outQ, t.pc)) =
    some ([99], 2) := by decide
/-- 2.7: an advance past MAX_ADDR faults and OUT is unchanged. -/
theorem test_output_advance_fault : (after (step { load [] with
      pc := maxAddr - 1, mem := ⟨[], [(maxAddr - 1, 104), (maxAddr, 5)]⟩ })).map (fun t => (t.outQ, t.fault)) =
    some ([], some (.invalidAddress (maxAddr - 1) none 9223372036854775808 .advance)) := by decide
/-- 2.5: Position operands. -/
theorem test_jumpIfTrue_position : (after (step (load [5, 4, 5, 0, 1, 7, 0, 99]))).map (·.pc) = some 7 := by decide
/-- 2.5: the target resolves though the jump is not taken. -/
theorem test_jumpIfTrue_target_resolved : (after (step (load [105, 0, -1, 99]))).map (·.fault) =
    some (some (.invalidAddress 0 (some .p2) (-1) .read)) := by decide
theorem test_jumpIfFalse_taken : (after (step (load [1106, 0, 4, 0, 99]))).map (·.pc) = some 4 := by decide
/-- 2.5: an Immediate negative target of a jump not taken is no address. -/
theorem test_jumpIfFalse_not_taken : (after (step (load [1106, 1, -7, 99]))).map (fun t => (t.pc, t.fault)) =
    some (3, none) := by decide
/-- The example of R160. -/
theorem test_relativeBaseOffset : (after (step { load [109, 19, 99] with rb := 2000 })).map (fun t => (t.rb, t.pc)) =
    some (2019, 2) := by decide
/-- 2.6: overflow faults and RB stays. -/
theorem test_relativeBaseOffset_overflow : (after (step { load [109, max64, 109, 1, 99] with pc := 2, rb := max64 })).map
    (fun t => (t.rb, t.fault)) = some (max64, some (.relativeBaseOverflow 2 max64 1)) := by decide
theorem test_halt : (after (step (load [20099]))).map (fun t => (t.rs, t.pc, t.busy)) = some (.halted, 0, false) := by decide
/-- 2.6: Halt at MAX_ADDR executes. -/
theorem test_halt_at_top : (after (step { load [] with pc := maxAddr, mem := ⟨[], [(maxAddr, 99)]⟩ })).map
    (fun t => (t.rs, t.pc, t.fault)) = some (.halted, maxAddr, none) := by decide

/-! ## Operands and faults: 95_test_vectors.md sections 2.2, 2.3, 2.4 -/

theorem test_relative_above_top : (after (step { load [204, 1] with rb := max64 })).map (·.fault) =
    some (some (.invalidAddress 0 (some .p1) 9223372036854775808 .read)) := by decide
theorem test_relative_below_bottom : (after (step { load [204, -1] with rb := min64 })).map (·.fault) =
    some (some (.invalidAddress 0 (some .p1) (-9223372036854775809) .read)) := by decide
theorem test_operand_fetch : (after (step { load [] with pc := maxAddr, mem := ⟨[], [(maxAddr, 104)]⟩ })).map (·.fault) =
    some (some (.invalidAddress maxAddr (some .p1) 9223372036854775808 .operandFetch)) := by decide
theorem test_negative_write : (after (step (load [1101, 2, 3, -5, 99]))).map (fun t => (t.fault, t.mem.ext)) =
    some (some (.invalidAddress 0 (some .p3) (-5) .write), []) := by decide
theorem test_immediate_write : (after (step (load [103, 5, 99]))).map (fun t => (t.fault, t.rs)) =
    some (some (.immediateWriteTarget 0 .p1), .running) := by decide
theorem test_negative_jump : (after (step (load [1105, 1, -3]))).map (fun t => (t.fault, t.pc)) =
    some (some (.invalidAddress 0 (some .p2) (-3) .jump), 0) := by decide
theorem test_unknown_opcode : (after (step { load [1105, 1, 100] with pc := 100 })).map (fun t => (t.fault, t.busy)) =
    some (some (.unknownOpcode 100 0), false) := by decide
/-- R44: a finite EXT_CAPACITY that is used up. -/
theorem test_capacity : (after (step { load [1101, 2, 3, 9, 99] with config := ⟨some 0, none, none⟩ })).map
    (fun t => (t.fault, t.mem.ext)) = some (some (.capacityExceeded (some 0) .extension), []) := by decide

/-! ## Memory and host commands -/

theorem test_extension_order : ((⟨[7], [(9, 1)]⟩ : Memory).write 5 3).ext = [(5, 3), (9, 1)] := by decide
/-- R44: writing 0 keeps an entry. -/
theorem test_extension_zero : ((⟨[7], []⟩ : Memory).write 5 0).keys = [5] := by decide
theorem test_run_halted : (left (command .run { State.reset with rs := .halted })).map (fun t => (t.fault, t.rs)) =
    some (some .runWhileHalted, .halted) := by decide
/-- 2.8: Construct([3,0,99]); Run; PushInput(5). -/
theorem test_push_wakes : (left (command (.pushInput 5) { State.reset with rs := .waitingForInput })).map
    (fun t => (t.rs, t.inQ, t.inCur)) = some (.running, [5], 0) := by decide
theorem test_push_after_halt : (left (command (.pushInput 5) { State.reset with rs := .halted })).map
    (fun t => (t.rs, t.inQ)) = some (.halted, [5]) := by decide
theorem test_push_full : (left (command (.pushInput 5) { State.reset with config := ⟨none, some 0, none⟩ })).map
    (fun t => (t.fault, t.inQ)) = some (some (.capacityExceeded none .inputQueue), []) := by decide
theorem test_peek : command (.peekMemory (-1)) State.reset = .refused ∧
    command (.peekMemory 10) State.reset = .done (.word 0) State.reset := by decide
theorem test_get_output : (left (command .getOutput { State.reset with outQ := [1, 2], outCur := 1 })).map (·.outCur) =
    some 2 ∧ command .getOutput State.reset = .done (.optWord none) State.reset := by decide
theorem test_last_output : command .lastOutput { State.reset with outQ := [1, 2], outCur := 2 } =
    .done (.optWord (some 2)) { State.reset with outQ := [1, 2], outCur := 2 } := by decide
theorem test_construct_after_fault :
    (left (command (.construct [99]) { State.reset with fault := some .runWhileHalted })).map (·.fault) = some none := by
  decide

/-! ## Witnesses: for each statement with hypotheses, values that meet all of them -/

theorem witness_EncodedInstructionDecodes : ([3, -1, 7] : List Word).length = 3 ∧ ([] : List Word).length = 0 ∧
    (99, Instr.halt, 0) ∈ [(1, Instr.add, 3), (99, Instr.halt, 0)] := by
  exact ⟨rfl, rfl, .tail _ (.head _)⟩

theorem witness_DecodeExaminesFiveDigits : 0 ≤ (100001 : Word).toInt ∧ 0 ≤ (1 : Word).toInt ∧
    (100001 : Word).toNat % 100000 = (1 : Word).toNat % 100000 := by decide

/-- One word for each clause, each at a boundary: -1, opcodes 98 and 99, and a digit 3 at each mode. -/
theorem witness_DecodeChecksInOrder : (-1 : Word).toInt < 0 ∧
    (0 ≤ (98 : Word).toInt ∧ (98 : Word).toNat % 100 ∉ [1, 2, 3, 4, 5, 6, 7, 8, 9, 99]) ∧
    (0 ≤ (22299 : Word).toInt ∧ (22299 : Word).toNat % 100 ∈ [1, 2, 3, 4, 5, 6, 7, 8, 9, 99]) ∧
    2 < (301 : Word).toNat / 100 % 10 ∧ 2 < (3001 : Word).toNat / 1000 % 10 ∧ 2 < (30004 : Word).toNat / 10000 % 10 := by
  decide

theorem witness_UnknownOpcodeFaults : (load [-1]).CanStep ∧ ((load [-1]).mem.read 0).toInt < 0 ∧
    (load [10]).CanStep ∧ ((load [10]).mem.read 0).toNat % 100 ∉ [1, 2, 3, 4, 5, 6, 7, 8, 9, 99] ∧
    (load []).CanStep ∧ (load []).mem.size ≤ (load []).pc ∧ (load []).pc ∉ (load []).mem.keys := by decide

theorem witness_UnknownModeFaults : (load [30099]).CanStep ∧ 0 ≤ ((load [30099]).mem.read 0).toInt ∧
    ((load [30099]).mem.read 0).toNat % 100 ∈ [1, 2, 3, 4, 5, 6, 7, 8, 9, 99] ∧
    2 < ((load [30099]).mem.read 0).toNat / 10 ^ (Param.p3.index + 1) % 10 ∧
    ∀ j : Param, j.index < Param.p3.index → ((load [30099]).mem.read 0).toNat / 10 ^ (j.index + 1) % 10 ≤ 2 := by
  refine ⟨by decide, by decide, by decide, by decide, ?_⟩
  rintro (_ | _ | _) <;> decide

theorem witness_StepRunsDecodedInstruction : (load [99]).CanStep ∧
    decode ((load [99]).mem.read (load [99]).pc) = .ok (.halt .position .position .position) ∧
    exec (.halt .position .position .position) (load [99]) = .next ((load [99]).setRs .halted) :=
  ⟨by decide, rfl, rfl⟩

theorem witness_StepWithoutRunStays : State.reset.busy = false := by decide

theorem witness_StepReportsFirstFault : (load [11101, 1, 1, 5, 99]).CanStep := by decide

/-- A step that faults, a command that faults, and a FAULT already recorded. -/
theorem witness_FaultEntryWritesOnlyFault :
    ((load [0]).CanStep ∧ ∃ t, step (load [0]) = .next t ∧ t.fault ≠ none) ∧
    (∃ a t, command .run { State.reset with rs := .halted } = .done a t ∧ t.fault ≠ none) ∧
    ({ State.reset with fault := some .runWhileHalted } : State).fault = some .runWhileHalted ∧
    State.reset.fault = none :=
  ⟨⟨by decide, _, rfl, by decide⟩, ⟨_, _, rfl, by decide⟩, rfl, rfl⟩

/-- For Add, and for the three other instructions of its shape, whose hypotheses are the same: a state that completes and
one that faults, in each mode of the write operand. -/
theorem witness_AddExecutes :
    ((load [1101, 2, 3, 4, 99]).Readable .p1 .immediate ∧ (load [1101, 2, 3, 4, 99]).Readable .p2 .immediate ∧
      (load [1101, 2, 3, 4, 99]).Writable .p3 .position ∧
      (load [1101, 2, 3, 4, 99]).HasRoom ((load [1101, 2, 3, 4, 99]).dst .p3 .position) ∧
      (load [1101, 2, 3, 4, 99]).pc + 4 ≤ maxAddr) ∧
    firstFault (.add .immediate .immediate .immediate) (load [11101, 1, 1, 5, 99]) =
      some (.immediateWriteTarget 0 .p3) := by decide

theorem witness_MultiplyExecutes :
    ((load [21002, 4, 3, 4, 33]).Readable .p1 .position ∧ (load [21002, 4, 3, 4, 33]).Readable .p2 .immediate ∧
      (load [21002, 4, 3, 4, 33]).Writable .p3 .relative ∧
      (load [21002, 4, 3, 4, 33]).HasRoom ((load [21002, 4, 3, 4, 33]).dst .p3 .relative) ∧
      (load [21002, 4, 3, 4, 33]).pc + 4 ≤ maxAddr) ∧
    firstFault (.multiply .position .position .position) (load [2, 0, 0, -5, 99]) =
      some (.invalidAddress 0 (some .p3) (-5) .write) := by decide

theorem witness_LessThanExecutes :
    ((load [7, 0, 9, 9, 99]).Readable .p1 .position ∧ (load [7, 0, 9, 9, 99]).Readable .p2 .position ∧
      (load [7, 0, 9, 9, 99]).Writable .p3 .position ∧
      (load [7, 0, 9, 9, 99]).HasRoom ((load [7, 0, 9, 9, 99]).dst .p3 .position) ∧
      (load [7, 0, 9, 9, 99]).pc + 4 ≤ maxAddr) ∧
    firstFault (.lessThan .position .position .position) (load [7, -1, 0, 0, 99]) =
      some (.invalidAddress 0 (some .p1) (-1) .read) := by decide

theorem witness_EqualsExecutes :
    ((load [208, 0, 0, 0, 99]).Readable .p1 .relative ∧ (load [208, 0, 0, 0, 99]).Readable .p2 .position ∧
      (load [208, 0, 0, 0, 99]).Writable .p3 .position ∧
      (load [208, 0, 0, 0, 99]).HasRoom ((load [208, 0, 0, 0, 99]).dst .p3 .position) ∧
      (load [208, 0, 0, 0, 99]).pc + 4 ≤ maxAddr) ∧
    firstFault (.equals .position .position .position)
      { load [8, 0, 0, 9, 99] with config := ⟨some 0, none, none⟩ } =
      some (.capacityExceeded (some 0) .extension) := by decide

/-- An unread input, a blocked Input, and a fault that comes before the queue test. -/
theorem witness_InputExecutes :
    (({ load [3, 0, 99] with inQ := [42] } : State).inQ[0]? = some 42 ∧
      ({ load [3, 0, 99] with inQ := [42] } : State).Writable .p1 .position ∧
      ({ load [3, 0, 99] with inQ := [42] } : State).HasRoom 0 ∧
      ({ load [3, 0, 99] with inQ := [42] } : State).dst .p1 .position = 0 ∧
      ({ load [3, 0, 99] with inQ := [42] } : State).pc + 2 ≤ maxAddr) ∧
    ((load [3, 0, 99]).inCur = (load [3, 0, 99]).inQ.length ∧ (load [3, 0, 99]).Writable .p1 .position) ∧
    firstFault (.input .immediate .position .position) (load [103, 5, 99]) = some (.immediateWriteTarget 0 .p1) := by
  decide

theorem witness_OutputExecutes :
    ((load [104, -7, 99]).Readable .p1 .immediate ∧
      (load [104, -7, 99]).config.outCapacity ≠ some (load [104, -7, 99]).outQ.length ∧
      (load [104, -7, 99]).pc + 2 ≤ maxAddr) ∧
    firstFault (.output .immediate .position .position)
      { load [104, -7, 99] with config := ⟨none, none, some 0⟩ } =
      some (.capacityExceeded (some 0) .outputQueue) := by decide

/-- Taken to address 0, not taken, and a taken jump to -3. -/
theorem witness_JumpIfTrueExecutes :
    ((load [1105, 1, 0]).Readable .p1 .immediate ∧ (load [1105, 1, 0]).Readable .p2 .immediate ∧
      (load [1105, 1, 0]).operand .p1 .immediate ≠ 0 ∧ 0 ≤ ((load [1105, 1, 0]).operand .p2 .immediate).toInt) ∧
    ((load [1105, 0, -3]).Readable .p1 .immediate ∧ (load [1105, 0, -3]).Readable .p2 .immediate ∧
      (load [1105, 0, -3]).operand .p1 .immediate = 0 ∧ (load [1105, 0, -3]).pc + 3 ≤ maxAddr) ∧
    firstFault (.jumpIfTrue .immediate .immediate .position) (load [1105, 1, -3]) =
      some (.invalidAddress 0 (some .p2) (-3) .jump) := by decide

theorem witness_JumpIfFalseExecutes :
    ((load [1106, 0, 9]).Readable .p1 .immediate ∧ (load [1106, 0, 9]).Readable .p2 .immediate ∧
      (load [1106, 0, 9]).operand .p1 .immediate = 0 ∧ 0 ≤ ((load [1106, 0, 9]).operand .p2 .immediate).toInt) ∧
    ((load [1106, 5, 9]).Readable .p1 .immediate ∧ (load [1106, 5, 9]).Readable .p2 .immediate ∧
      (load [1106, 5, 9]).operand .p1 .immediate ≠ 0 ∧ (load [1106, 5, 9]).pc + 3 ≤ maxAddr) ∧
    firstFault (.jumpIfFalse .immediate .position .position) (load [106, 1, -1]) =
      some (.invalidAddress 0 (some .p2) (-1) .read) := by decide

/-- The new RB at the top of the Word range, and one past it. -/
theorem witness_RelativeBaseOffsetExecutes :
    ((load [109, max64, 99]).Readable .p1 .immediate ∧
      max64.toInt = (load [109, max64, 99]).rb.toInt + ((load [109, max64, 99]).operand .p1 .immediate).toInt ∧
      (load [109, max64, 99]).pc + 2 ≤ maxAddr) ∧
    firstFault (.relativeBaseOffset .immediate .position .position) { load [109, 1, 99] with rb := max64 } =
      some (.relativeBaseOverflow 0 max64 1) := by decide

theorem witness_HaltExecutes : (load [20099]).CanStep ∧
    decode ((load [20099]).mem.read (load [20099]).pc) = .ok (.halt .position .position .relative) :=
  ⟨by decide, rfl⟩

theorem witness_InstructionKeepsFaultAndBusy :
    (∃ t, exec (.halt .position .position .position) (load [99]) = .next t) ∧
    firstFault (.halt .position .position .position) (load [99]) = none ∧
    (∃ t, exec (.output .position .position .position) (load [4, -2]) = .next t) ∧
    firstFault (.output .position .position .position) (load [4, -2]) =
      some (.invalidAddress 0 (some .p1) (-2) .read) :=
  ⟨runs (by decide), by decide, runs (by decide), by decide⟩

/-- A next state that stores, with an address outside the store. -/
theorem witness_AluFrame : (∃ t, exec (.add .immediate .immediate .position) (load [1101, 2, 3, 4, 99]) = .next t ∧
      t.fault = none) ∧
    (after (exec (.add .immediate .immediate .position) (load [1101, 2, 3, 4, 99]))).map (·.mem.read 4) = some 5 ∧
    (load [1101, 2, 3, 4, 99]).dst .p3 .position ≠ 0 :=
  ⟨runs_to (by decide), by decide, by decide⟩

theorem witness_InputFrame :
    (∃ t, exec (.input .position .position .position) { load [3, 0, 99] with inQ := [42] } = .next t) ∧
    ({ load [3, 0, 99] with inQ := [42] } : State).HasInput ∧
    (∃ t, exec (.input .position .position .position) (load [3, 0, 99]) = .next t) ∧ ¬ (load [3, 0, 99]).HasInput :=
  ⟨runs (by decide), by decide, runs (by decide), by decide⟩

theorem witness_NonStoringFrame :
    (∃ t, exec (.output .immediate .position .position) (load [104, 7, 99]) = .next t) ∧
    (∃ t, exec (.jumpIfTrue .immediate .immediate .position) (load [1105, 1, 0]) = .next t) ∧
    (∃ t, exec (.jumpIfFalse .immediate .immediate .position) (load [1106, 0, 0]) = .next t) ∧
    (∃ t, exec (.relativeBaseOffset .immediate .position .position) (load [109, 7, 99]) = .next t) ∧
    (∃ t, exec (.halt .position .position .position) (load [99]) = .next t) :=
  ⟨runs (by decide), runs (by decide), runs (by decide), runs (by decide), runs (by decide)⟩

theorem witness_NeverWrittenReadsZero : ([99] : List Word).length ≤ 1 ∧ 1 ∉ ([(0, 5), (2, 6)] : List (Nat × Word)).map Prod.fst := by
  decide

/-- One word in PRIM against the same word in EXT. -/
theorem witness_MemorySplitIsInvisible : FlatEq (load [99]) { load [99] with mem := ⟨[], [(0, 99)]⟩ } ∧
    (load [99]).config.extCapacity = none ∧ (∃ t, step (load [99]) = .next t) ∧
    ∃ t, command (.peekMemory 0) { load [99] with busy := false } = .done (.word 99) t := by
  refine ⟨⟨?_, rfl⟩, rfl, ⟨_, rfl⟩, ⟨_, rfl⟩⟩
  rintro (_ | a)
  · rfl
  · simp [load, Memory.read, Memory.size, lookupEntry]

theorem witness_StepKeepsInvariants : (load [99]).Inv ∧ (∃ t, step (load [99]) = .next t) ∧
    ({ State.reset with rs := .halted } : State).Inv ∧ (∃ t, step { State.reset with rs := .halted } = .next t) :=
  ⟨by decide, ⟨_, rfl⟩, by decide, ⟨_, rfl⟩⟩

theorem witness_CommandsKeepInvariants : State.reset.Inv ∧ (∃ a t, command .run State.reset = .done a t) ∧
    ({ State.reset with rs := .halted } : State).Inv ∧
    (∃ a t, command (.construct [99]) { State.reset with rs := .halted } = .done a t) :=
  ⟨by decide, ⟨_, _, rfl⟩, by decide, ⟨_, _, rfl⟩⟩

theorem reachable_constructed (words : List Word) (h : words.length ≤ maxAddr + 1) :
    Reachable (State.reset.constructed words) :=
  .move (.start Config.unbounded) (.host (.construct words) .nothing (if_pos h))

theorem reachable_running (words : List Word) (h : words.length ≤ maxAddr + 1) : Reachable (load words) :=
  .move (reachable_constructed words h) (.host .run .nothing rfl)

/-- A reachable Halted state, a step from it, and a Construct on it. -/
theorem witness_ReachableStatesHaveInvariants : ∃ s, Reachable s ∧ s.rs = .halted ∧ (∃ t, Move s t) ∧
    ∃ t, command (.construct []) s = .done .nothing t :=
  ⟨{ load [99] with rs := .halted, busy := false }, .move (reachable_running [99] (by decide)) (.engine rfl), rfl,
    ⟨_, .engine rfl⟩, ⟨_, rfl⟩⟩

theorem witness_CapacitiesHold :
    ({ load [1101, 2, 3, 9, 99] with config := ⟨some 1, some 1, some 1⟩ } : State).Inv ∧
    ({ load [1101, 2, 3, 9, 99] with config := ⟨some 1, some 1, some 1⟩ } : State).WithinCapacity ∧
    (∃ t, step { load [1101, 2, 3, 9, 99] with config := ⟨some 1, some 1, some 1⟩ } = .next t) ∧
    (∃ a t, command (.pushInput 5) { State.reset with config := ⟨some 1, some 1, some 1⟩ } = .done a t) := by
  refine ⟨by decide, ?_, runs (by decide), done (by decide)⟩
  simp [State.WithinCapacity, load, State.reset]
  decide

theorem witness_MachineNeverStops : (load [99]).Inv := by decide

theorem witness_QueuesOnlyGrow : (∃ t, step (load [104, 7, 99]) = .next t) ∧
    (∀ words, Command.pushInput 5 ≠ Command.construct words) ∧
    ∃ a t, command (.pushInput 5) State.reset = .done a t :=
  ⟨runs (by decide), nofun, done (by decide)⟩

theorem witness_HaltedIsTerminal : ({ State.reset with rs := .halted } : State).rs = .halted ∧
    (∃ t, step { State.reset with rs := .halted } = .next t) ∧
    (∃ a t, command (.pushInput 5) { State.reset with rs := .halted } = .done a t) ∧
    ({ State.reset with rs := .halted } : State).busy = false ∧ ([99] : List Word).length ≤ maxAddr + 1 :=
  ⟨rfl, ⟨_, rfl⟩, ⟨_, _, rfl⟩, rfl, by decide⟩

theorem witness_FaultIsTerminal : ({ State.reset with fault := some .runWhileHalted } : State).fault = some .runWhileHalted ∧
    (∃ t, step { State.reset with fault := some .runWhileHalted } = .next t) ∧
    (∀ words, Command.isHalted ≠ Command.construct words) ∧
    ({ State.reset with fault := some .runWhileHalted } : State).busy = false :=
  ⟨rfl, ⟨_, rfl⟩, nofun, rfl⟩

theorem witness_RbChangesOnlyByOffset : (∃ t, step (load [109, 19, 99]) = .next t ∧ t.rb ≠ (load [109, 19, 99]).rb) ∧
    ∃ a t, command .run State.reset = .done a t :=
  ⟨runs_to (by decide), ⟨_, _, rfl⟩⟩

/-- A blocking Input, a Halt, and a taken jump. -/
theorem witness_RunStateTransitions :
    ((load [3, 0, 99]).CanStep ∧ decode ((load [3, 0, 99]).mem.read 0) = .ok (.input .position .position .position) ∧
      firstFault (.input .position .position .position) (load [3, 0, 99]) = none ∧ ¬ (load [3, 0, 99]).HasInput ∧
      ∃ t, step (load [3, 0, 99]) = .next t) ∧
    ((load [99]).CanStep ∧ decode ((load [99]).mem.read 0) = .ok (.halt .position .position .position) ∧
      firstFault (.halt .position .position .position) (load [99]) = none ∧ ∃ t, step (load [99]) = .next t) ∧
    ((load [1105, 1, 7]).CanStep ∧
      decode ((load [1105, 1, 7]).mem.read 0) = .ok (.jumpIfTrue .immediate .immediate .position) ∧
      firstFault (.jumpIfTrue .immediate .immediate .position) (load [1105, 1, 7]) = none ∧
      (load [1105, 1, 7]).operand .p1 .immediate ≠ 0 ∧ ∃ t, step (load [1105, 1, 7]) = .next t) :=
  ⟨⟨by decide, rfl, by decide, by decide, runs (by decide)⟩, ⟨by decide, rfl, by decide, runs (by decide)⟩,
    ⟨by decide, rfl, by decide, by decide, runs (by decide)⟩⟩

/-- A successful Input, a plain advance, and a jump that is not taken. -/
theorem witness_RunStateTransitions_advance :
    (({ load [3, 0, 99] with inQ := [42] } : State).CanStep ∧
      decode ((load [3, 0, 99]).mem.read 0) = .ok (.input .position .position .position) ∧
      firstFault (.input .position .position .position) { load [3, 0, 99] with inQ := [42] } = none ∧
      ({ load [3, 0, 99] with inQ := [42] } : State).HasInput ∧
      ∃ t, step { load [3, 0, 99] with inQ := [42] } = .next t ∧ t.rs = .running ∧ t.pc = 2) ∧
    ((load [1101, 2, 3, 4, 99]).CanStep ∧
      decode ((load [1101, 2, 3, 4, 99]).mem.read 0) = .ok (.add .immediate .immediate .position) ∧
      firstFault (.add .immediate .immediate .position) (load [1101, 2, 3, 4, 99]) = none ∧
      ∃ t, step (load [1101, 2, 3, 4, 99]) = .next t ∧ t.rs = .running ∧ t.pc = 4) ∧
    ((load [1105, 0, 7]).CanStep ∧
      decode ((load [1105, 0, 7]).mem.read 0) = .ok (.jumpIfTrue .immediate .immediate .position) ∧
      firstFault (.jumpIfTrue .immediate .immediate .position) (load [1105, 0, 7]) = none ∧
      (load [1105, 0, 7]).operand .p1 .immediate = 0 ∧
      ∃ t, step (load [1105, 0, 7]) = .next t ∧ t.rs = .running ∧ t.pc = 3) :=
  ⟨⟨by decide, rfl, by decide, by decide, runs_to (by decide)⟩, ⟨by decide, rfl, by decide, runs_to (by decide)⟩,
    ⟨by decide, rfl, by decide, by decide, runs_to (by decide)⟩⟩

/-- A faulting step and a state in which nothing executes; a Construct, a PushInput that wakes a blocked core, one on a
full input queue, one in Running, and another command. -/
theorem witness_RunStateTransitions_host :
    (∃ t, step (load [0]) = .next t ∧ t.fault ≠ none) ∧ (¬ State.reset.CanStep ∧ ∃ t, step State.reset = .next t) ∧
    (∃ a t, command (.construct [99]) { State.reset with rs := .halted } = .done a t) ∧
    ((left (command (.pushInput 5) { State.reset with rs := .waitingForInput })).map (fun t => (t.rs, t.fault)) =
      some (.running, none)) ∧
    ((left (command (.pushInput 5) { State.reset with rs := .waitingForInput, config := ⟨none, some 0, none⟩ })).map
      (fun t => (t.rs, t.fault)) = some (.waitingForInput, some (.capacityExceeded none .inputQueue))) ∧
    (∃ a t, command (.pushInput 5) State.reset = .done a t) ∧ (∃ a t, command .run State.reset = .done a t) ∧
    (∀ words, Command.run ≠ .construct words) ∧ ∀ v, Command.run ≠ .pushInput v :=
  ⟨runs_to (by decide), ⟨by decide, runs (by decide)⟩, done (by decide), by decide, by decide, done (by decide),
    done (by decide), nofun, nofun⟩

theorem witness_CapacitiesNeverChange : (∃ t, Move (load [99]) t) ∧ ∃ t, Move State.reset t :=
  ⟨⟨_, .engine rfl⟩, ⟨_, .host .run .nothing rfl⟩⟩

/-- Also the witness of PushInputAppends, RunStartsOrReturns, RunStateQueriesAnswer and PeekMemoryReads. -/
theorem witness_ConstructResetsEverything : State.reset.busy = false ∧ State.reset.fault = none ∧
    ([] : List Word).length ≤ maxAddr + 1 ∧ State.reset.rs = .running := by decide

theorem witness_PushInputAppends : State.reset.busy = false ∧ State.reset.fault = none ∧
    ({ State.reset with config := ⟨none, some 0, none⟩ } : State).config.inCapacity = some State.reset.inQ.length ∧
    ({ State.reset with rs := .waitingForInput } : State).rs = .waitingForInput := by decide

theorem witness_RunStartsOrReturns :
    (({ State.reset with rs := .halted } : State).busy = false ∧ ({ State.reset with rs := .halted } : State).fault = none) ∧
    (({ State.reset with rs := .waitingForInput } : State).busy = false ∧
      ({ State.reset with rs := .waitingForInput } : State).fault = none) ∧ State.reset.rs = .running := by decide

theorem witness_RunEndsExactlyWhenStopped : (load [1105, 1, 0]).Inv ∧ (load [1105, 1, 0]).busy = true ∧
    (load [99]).Inv ∧ (load [99]).busy = true := by decide

/-- Drained, not drained, and empty. -/
theorem witness_OutputQueriesAnswer :
    (({ State.reset with outQ := [1], outCur := 1 } : State).busy = false ∧
      ({ State.reset with outQ := [1], outCur := 1 } : State).fault = none ∧
      ({ State.reset with outQ := [1], outCur := 1 } : State).outCur ≤ 1) ∧
    ({ State.reset with outQ := [1], outCur := 0 } : State).outCur < 1 ∧
    State.reset.outQ = [] ∧ State.reset.outCur ≤ State.reset.outQ.length := by decide

theorem witness_RunStateQueriesAnswer : State.reset.busy = false ∧ State.reset.fault = none := by decide

theorem witness_PeekMemoryReads : State.reset.busy = false ∧ State.reset.fault = none ∧
    ((0 : Int) ≤ maxAddr ∧ (maxAddr : Int) ≤ maxAddr) ∧ (-1 : Int) < 0 ∧ (maxAddr : Int) < 9223372036854775808 := by
  decide

theorem witness_BusyRefusesCommands : (load [99]).busy = true := by decide

end Sys2Proof.Tests
end

