-- ==== Sys2Proof/Proofs/Scope.lean ====
section
/-! Proofs of the statements of spec/00_scope.md: the range of a Word, and the capacities as constants of the core. -/

namespace Sys2Proof.Machine

variable {s t : State}

/-! ## Words (R7) -/

theorem toInt_mem_wordRange (w : Word) : -2 ^ 63 ≤ w.toInt ∧ w.toInt ≤ 2 ^ 63 - 1 :=
  ⟨BitVec.le_toInt w, Int.le_sub_one_of_lt (BitVec.toInt_lt (x := w))⟩

/-- The formula of R7: the signed value of a wrapped integer. -/
theorem wrap64_toInt (x : Int) : (wrap64 x).toInt = (x + 2 ^ 63) % 2 ^ 64 - 2 ^ 63 := by
  have hbmod : (wrap64 x).toInt = x.bmod (2 ^ 64) := BitVec.toInt_ofInt x
  rw [hbmod, Int.bmod_def]
  split <;> omega

/-- The low 64 bits of a wrapped integer are those of the integer. -/
theorem wrap64_toNat (x : Int) : ((wrap64 x).toNat : Int) = x % 2 ^ 64 := by
  have hlow : (wrap64 x).toNat = (x % 2 ^ 64).toNat := BitVec.toNat_ofInt x
  omega

/-- Wrapping changes no integer that is the value of a Word. -/
theorem wrap64_toInt_of_mem {x : Int} (h : -2 ^ 63 ≤ x ∧ x ≤ 2 ^ 63 - 1) : (wrap64 x).toInt = x := by
  rw [wrap64_toInt]
  omega

theorem exists_word_toInt_iff (x : Int) : (∃ w : Word, w.toInt = x) ↔ -2 ^ 63 ≤ x ∧ x ≤ 2 ^ 63 - 1 := by
  constructor
  · rintro ⟨w, rfl⟩
    exact toInt_mem_wordRange w
  · exact fun h => ⟨wrap64 x, wrap64_toInt_of_mem h⟩

/-- Settles O12: wrap64 maps each integer of the range to a Word with that value, and no Word has another. -/
theorem wrapIsTwosComplement : Obligations.WrapIsTwosComplement :=
  ⟨exists_word_toInt_iff, fun x => (inWord_iff x).trans (exists_word_toInt_iff x).symm,
    fun x => ⟨wrap64_toInt x, wrap64_toNat x⟩⟩

/-! ## The commands: what each can answer (60_exceptions.md R212, R218, R220) -/

theorem State.unlessFaulted_done (s t : State) (r : CommandResult) (a : Answer) :
    s.unlessFaulted r = .done a t ↔ s.fault = none ∧ r = .done a t := by
  unfold State.unlessFaulted
  split <;> simp [*]

theorem State.getOutput_done (s t : State) (a : Answer) :
    s.getOutput = .done a t ↔
      a = .optWord s.nextOutput ∧ t = (if s.nextOutput = none then s else { s with outCur := s.outCur + 1 }) := by
  unfold State.getOutput
  cases s.nextOutput <;> simp [eq_comm]

/-- Everything a command can do, where it is done: Construct in any fault state, and with no fault recorded PushInput, Run,
GetOutput, or a query, which leaves the state as it is. -/
theorem command_cases {c : Command} {a : Answer} (h : command c s = .done a t) :
    s.busy = false ∧
      ((∃ words, c = .construct words ∧ words.length ≤ maxAddr + 1 ∧ a = .nothing ∧ t = s.constructed words) ∨
        s.fault = none ∧
          ((∃ v, c = .pushInput v ∧ a = .nothing ∧ t = s.pushInput v) ∨
            (c = .run ∧ a = .nothing ∧ t = s.startRun) ∨
            (c = .getOutput ∧ s.getOutput = .done a t) ∨
            ((c ∈ [.hasOutput, .lastOutput, .isHalted, .isHaltedOrBlocked] ∨
              ∃ x : Int, c = .peekMemory x ∧ 0 ≤ x ∧ x ≤ maxAddr) ∧ t = s))) := by
  unfold command at h
  split at h
  · cases h
  rename_i hb
  refine ⟨by simpa using hb, ?_⟩
  cases c with
  | construct words =>
    dsimp only at h
    split at h
    · rename_i hlen
      cases h
      exact .inl ⟨words, rfl, hlen, rfl, rfl⟩
    · cases h
  | pushInput v =>
    obtain ⟨hf, hd⟩ := (s.unlessFaulted_done t _ a).1 h
    cases hd
    exact .inr ⟨hf, .inl ⟨v, rfl, rfl, rfl⟩⟩
  | run =>
    obtain ⟨hf, hd⟩ := (s.unlessFaulted_done t _ a).1 h
    cases hd
    exact .inr ⟨hf, .inr (.inl ⟨rfl, rfl, rfl⟩)⟩
  | getOutput =>
    obtain ⟨hf, hd⟩ := (s.unlessFaulted_done t _ a).1 h
    exact .inr ⟨hf, .inr (.inr (.inl ⟨rfl, hd⟩))⟩
  | peekMemory x =>
    obtain ⟨hf, hd⟩ := (s.unlessFaulted_done t _ a).1 h
    split at hd
    · rename_i hx
      cases hd
      exact .inr ⟨hf, .inr (.inr (.inr ⟨.inr ⟨x, rfl, (validAddr_iff x).1 hx⟩, rfl⟩))⟩
    · cases hd
  | hasOutput | lastOutput | isHalted | isHaltedOrBlocked =>
    obtain ⟨hf, hd⟩ := (s.unlessFaulted_done t _ a).1 h
    cases hd
    exact .inr ⟨hf, .inr (.inr (.inr ⟨.inl (by simp), rfl⟩))⟩

/-! ## What keeps the capacities -/

@[simp] theorem State.endRunUnlessEnabled_config (s : State) : s.endRunUnlessEnabled.config = s.config := by
  unfold State.endRunUnlessEnabled
  split
  · rfl
  · exact s.setBusy_config false

@[simp] theorem State.pushInput_config (s : State) (v : Word) : (s.pushInput v).config = s.config := by
  unfold State.pushInput
  split
  · exact s.raise_config _
  · rfl

@[simp] theorem State.startRun_config (s : State) : s.startRun.config = s.config := by
  unfold State.startRun
  split
  · exact s.raise_config _
  · rfl
  · exact s.setBusy_config true

theorem State.getOutput_config {a : Answer} (h : s.getOutput = .done a t) : t.config = s.config := by
  obtain ⟨-, rfl⟩ := (s.getOutput_done t a).1 h
  split <;> rfl

/-- What a fault keeps and what the commit gives, the end of an instruction gives. -/
theorem State.finish_keeps {P : State → Prop} {r : Except FaultInfo State} (hraise : ∀ f, P (s.raise f))
    (hcommit : ∀ u, r = .ok u → P u) (h : s.finish r = .next t) : P t := by
  obtain hr | ⟨f, -, rfl⟩ := (s.finish_next t r).1 h
  · exact hcommit t hr
  · exact hraise f

theorem aluCommit_config {f : Word → Word → Word} {m1 m2 m3 : Mode} (h : aluCommit f m1 m2 m3 s = .ok t) :
    t.config = s.config := by
  obtain ⟨_, _, _, _, _, _, _, _, rfl⟩ := aluCommit_ok h
  rfl

theorem inputCommit_config {m1 : Mode} (h : inputCommit m1 s = .ok t) : t.config = s.config := by
  obtain ⟨_, _, ⟨_, rfl⟩ | ⟨_, _, _, _, rfl⟩⟩ := inputCommit_ok h
  · rfl
  · rfl

theorem outputCommit_config {m1 : Mode} (h : outputCommit m1 s = .ok t) : t.config = s.config := by
  obtain ⟨_, _, _, _, rfl⟩ := outputCommit_ok h
  rfl

theorem jumpCommit_config {taken : Word → Bool} {m1 m2 : Mode} (h : jumpCommit taken m1 m2 s = .ok t) :
    t.config = s.config := by
  obtain ⟨_, _, _, _, ⟨_, _, rfl⟩ | ⟨_, _, rfl⟩⟩ := jumpCommit_ok h
  · rfl
  · rfl

theorem relativeBaseCommit_config {m1 : Mode} (h : relativeBaseCommit m1 s = .ok t) : t.config = s.config := by
  obtain ⟨_, _, _, _, rfl⟩ := relativeBaseCommit_ok h
  rfl

theorem State.finish_config {r : Except FaultInfo State} (hcommit : ∀ u, r = .ok u → u.config = s.config)
    (h : s.finish r = .next t) : t.config = s.config :=
  State.finish_keeps (P := fun u => u.config = s.config) s.raise_config hcommit h

theorem exec_config {i : Instr} (h : exec i s = .next t) : t.config = s.config := by
  cases i with
  | add | multiply | lessThan | equals =>
    simp only [exec_add, exec_multiply, exec_lessThan, exec_equals] at h
    exact State.finish_config (fun _ => aluCommit_config) h
  | input =>
    rw [exec_input] at h
    exact State.finish_config (fun _ => inputCommit_config) h
  | output =>
    rw [exec_output] at h
    exact State.finish_config (fun _ => outputCommit_config) h
  | jumpIfTrue | jumpIfFalse =>
    simp only [exec_jumpIfTrue, exec_jumpIfFalse] at h
    exact State.finish_config (fun _ => jumpCommit_config) h
  | relativeBaseOffset =>
    rw [exec_relativeBaseOffset] at h
    exact State.finish_config (fun _ => relativeBaseCommit_config) h
  | halt =>
    cases h
    exact s.setRs_config .halted

theorem step_config (h : step s = .next t) : t.config = s.config := by
  obtain ⟨-, rfl⟩ | ⟨-, -, ⟨_, -, rfl⟩ | ⟨i, u, -, hu, rfl⟩⟩ := step_cases h
  · exact s.endRunUnlessEnabled_config
  · exact s.raise_config _
  · exact u.endRunUnlessEnabled_config.trans (exec_config hu)

theorem command_config {c : Command} {a : Answer} (h : command c s = .done a t) : t.config = s.config := by
  obtain ⟨-, ⟨words, -, -, -, rfl⟩ | ⟨-, ⟨v, -, -, rfl⟩ | ⟨-, -, rfl⟩ | ⟨-, hout⟩ | ⟨-, rfl⟩⟩⟩ := command_cases h
  · exact s.constructed_config words
  · exact s.pushInput_config v
  · exact s.startRun_config
  · exact State.getOutput_config hout
  · rfl

/-- Settles O44, by the two kinds of a move. -/
theorem capacitiesNeverChange : Obligations.CapacitiesNeverChange
  | _, _, .engine h => step_config h
  | _, _, .host _ _ h => command_config h

end Sys2Proof.Machine
end

