-- ==== Sys2Proof/Proofs/State.lean ====
section
/-! Proofs of the statements of spec/10_state.md: the invariants of R34, the queues of R32 and the relative base of R23.
Two inversions carry them: the ways in which an instruction, and a host command, can change the state. -/

namespace Sys2Proof.Machine

variable {s t : State} {i : Instr} {c : Command} {a : Answer}

/-! ## What an instruction can do to the state -/

/-- The ways in which an instruction changes the state. Only as much is said of the values as the rules of 10_state.md
need: that a written address, or a new pc, is an address, and that a new RB is the exact sum. -/
inductive ExecEffect (s : State) : Instr → State → Prop where
  /-- The first failing check raised its fault (60_exceptions.md R210). -/
  | faulted (i : Instr) (f : FaultInfo) : ExecEffect s i (s.raise f)
  /-- Add, Multiply, LessThan, Equals (40_alu.md R106). -/
  | stored (i : Instr) {d n : Nat} (v : Word) (hd : d ≤ maxAddr) (hn : n ≤ maxAddr) :
      ExecEffect s i { s with mem := s.mem.write d v, pc := n }
  /-- Input with no unread input (41_io.md R120). -/
  | blocked (m1 m2 m3 : Mode) (hin : ¬ s.HasInput) : ExecEffect s (.input m1 m2 m3) { s with rs := .waitingForInput }
  /-- Input with an unread input (R120). -/
  | inputTaken (m1 m2 m3 : Mode) {d n : Nat} (v : Word) (hin : s.HasInput) (hd : d ≤ maxAddr) (hn : n ≤ maxAddr) :
      ExecEffect s (.input m1 m2 m3) { s with mem := s.mem.write d v, inCur := s.inCur + 1, pc := n }
  /-- Output (R121). -/
  | outputAppended (m1 m2 m3 : Mode) {n : Nat} (v : Word) (hn : n ≤ maxAddr) :
      ExecEffect s (.output m1 m2 m3) { s with outQ := s.outQ ++ [v], pc := n }
  /-- A conditional jump, taken or not (42_jumps.md R140, R141). -/
  | jumped (i : Instr) {n : Nat} (hn : n ≤ maxAddr) : ExecEffect s i { s with pc := n }
  /-- RelativeBaseOffset (43_relbase_halt.md R160). -/
  | rbOffset (m1 m2 m3 : Mode) {n : Nat} (nb : Word) (hnb : nb.toInt = s.rb.toInt + (s.operand .p1 m1).toInt)
      (hn : n ≤ maxAddr) : ExecEffect s (.relativeBaseOffset m1 m2 m3) { s with rb := nb, pc := n }
  /-- Halt (R161). -/
  | halted (m1 m2 m3 : Mode) : ExecEffect s (.halt m1 m2 m3) { s with rs := .halted }

/-- An instruction has an effect where its commit has one: otherwise it raises a fault. -/
theorem State.finish_effect {r : Except FaultInfo State} (hcommit : ∀ u, r = .ok u → ExecEffect s i u)
    (h : s.finish r = .next t) : ExecEffect s i t :=
  State.finish_keeps (.faulted i) hcommit h

theorem aluCommit_effect {f : Word → Word → Word} {m1 m2 m3 : Mode} (h : aluCommit f m1 m2 m3 s = .ok t) :
    ExecEffect s i t := by
  obtain ⟨_, _, d, -, -, hd, -, hn, rfl⟩ := aluCommit_ok h
  exact .stored i _ (s.addressOf_le .p3 m3 d hd) hn

theorem inputCommit_effect {m1 m2 m3 : Mode} (h : inputCommit m1 s = .ok t) : ExecEffect s (.input m1 m2 m3) t := by
  obtain ⟨d, hd, ⟨hnone, rfl⟩ | ⟨v, hsome, -, hn, rfl⟩⟩ := inputCommit_ok h
  · exact .blocked m1 m2 m3 (s.nextInput_eq_none.1 hnone)
  · have hin : s.HasInput := (List.getElem?_eq_some_iff.1 hsome).1
    exact .inputTaken m1 m2 m3 v hin (s.addressOf_le .p1 m1 d hd) hn

theorem outputCommit_effect {m1 m2 m3 : Mode} (h : outputCommit m1 s = .ok t) : ExecEffect s (.output m1 m2 m3) t := by
  obtain ⟨v, -, -, hn, rfl⟩ := outputCommit_ok h
  exact .outputAppended m1 m2 m3 v hn

/-- The value of a Word is no address above MAX_ADDR (42_jumps.md R140). -/
theorem toNat_toInt_le_maxAddr (w : Word) : w.toInt.toNat ≤ maxAddr := by
  have hrange := toInt_mem_wordRange w
  unfold maxAddr
  omega

theorem jumpCommit_effect {taken : Word → Bool} {m1 m2 : Mode} (h : jumpCommit taken m1 m2 s = .ok t) :
    ExecEffect s i t := by
  obtain ⟨_, w, -, -, ⟨-, -, rfl⟩ | ⟨-, hn, rfl⟩⟩ := jumpCommit_ok h
  · exact .jumped i (toNat_toInt_le_maxAddr w)
  · exact .jumped i hn

theorem relativeBaseCommit_effect {m1 m2 m3 : Mode} (h : relativeBaseCommit m1 s = .ok t) :
    ExecEffect s (.relativeBaseOffset m1 m2 m3) t := by
  obtain ⟨k, hk, hword, hn, rfl⟩ := relativeBaseCommit_ok h
  obtain ⟨-, rfl⟩ := s.valueOf_ok .p1 m1 k hk
  exact .rbOffset m1 m2 m3 _ (wrap64_toInt_of_mem ((inWord_iff _).1 hword)) hn

/-- Every instruction has one of the effects. -/
theorem exec_effect (h : exec i s = .next t) : ExecEffect s i t := by
  cases i with
  | add | multiply | lessThan | equals =>
    simp only [exec_add, exec_multiply, exec_lessThan, exec_equals] at h
    exact State.finish_effect (fun _ => aluCommit_effect) h
  | input =>
    rw [exec_input] at h
    exact State.finish_effect (fun _ => inputCommit_effect) h
  | output =>
    rw [exec_output] at h
    exact State.finish_effect (fun _ => outputCommit_effect) h
  | jumpIfTrue | jumpIfFalse =>
    simp only [exec_jumpIfTrue, exec_jumpIfFalse] at h
    exact State.finish_effect (fun _ => jumpCommit_effect) h
  | relativeBaseOffset =>
    rw [exec_relativeBaseOffset] at h
    exact State.finish_effect (fun _ => relativeBaseCommit_effect) h
  | halt m1 m2 m3 =>
    cases h
    exact .halted m1 m2 m3

/-- The loop test of Run writes BUSY alone: it is 1 after the test exactly where a step is enabled. -/
theorem State.endRunUnlessEnabled_eq (s : State) : s.endRunUnlessEnabled = s.setBusy s.enabled := by
  unfold State.endRunUnlessEnabled
  split
  · rename_i he
    obtain ⟨hbusy, -, -⟩ := s.enabled_iff.1 he
    rw [he, ← hbusy]
    rfl
  · rename_i he
    rw [Bool.eq_false_of_not_eq_true he]

/-! ## What a host command can do to the state (60_exceptions.md R220) -/

/-- The ways in which a done command changes the state. -/
inductive CommandEffect (s : State) : Command → Answer → State → Prop where
  /-- Construct (70_reset_and_hazards.md R250). -/
  | constructed (words : List Word) (hlen : words.length ≤ maxAddr + 1) :
      CommandEffect s (.construct words) .nothing (s.constructed words)
  /-- Run on a Halted core, or PushInput on a full queue (R207, R208). -/
  | faulted (c : Command) (a : Answer) (f : FaultInfo) : CommandEffect s c a (s.raise f)
  /-- PushInput (R222). -/
  | inputPushed (v : Word) (a : Answer) : CommandEffect s (.pushInput v) a
      { s with inQ := s.inQ ++ [v], rs := if s.rs = .waitingForInput then .running else s.rs }
  /-- Run that starts its loop (R223). -/
  | runStarted (a : Answer) (hrs : s.rs = .running) (hfault : s.fault = none) :
      CommandEffect s .run a (s.setBusy true)
  /-- GetOutput with an unread output (R225). -/
  | outputRead (a : Answer) (hout : s.outCur < s.outQ.length) :
      CommandEffect s .getOutput a { s with outCur := s.outCur + 1 }
  /-- A query, Run on a blocked core, or GetOutput with no unread output. -/
  | unchanged (c : Command) (a : Answer) : CommandEffect s c a s

theorem State.pushInput_effect (s : State) (v : Word) (a : Answer) :
    CommandEffect s (.pushInput v) a (s.pushInput v) := by
  unfold State.pushInput
  split
  · exact .faulted _ a _
  · exact .inputPushed v a

theorem State.startRun_effect (s : State) (a : Answer) (hfault : s.fault = none) :
    CommandEffect s .run a s.startRun := by
  unfold State.startRun
  split
  · exact .faulted .run a _
  · exact .unchanged .run a
  · rename_i hrs
    exact .runStarted a hrs hfault

theorem State.getOutput_effect (h : s.getOutput = .done a t) : CommandEffect s .getOutput a t := by
  obtain ⟨-, rfl⟩ := (s.getOutput_done t a).1 h
  split
  · exact .unchanged .getOutput a
  · rename_i hsome
    have hout : s.outCur < s.outQ.length := by simpa [State.nextOutput] using hsome
    exact .outputRead a hout

/-- Every command that is done has one of the effects. -/
theorem command_effect (h : command c s = .done a t) : CommandEffect s c a t := by
  obtain ⟨-, ⟨words, rfl, hlen, rfl, rfl⟩ | ⟨hf, ⟨v, rfl, -, rfl⟩ | ⟨rfl, -, rfl⟩ | ⟨rfl, hout⟩ | ⟨-, rfl⟩⟩⟩ :=
    command_cases h
  · exact .constructed words hlen
  · exact s.pushInput_effect v a
  · exact s.startRun_effect a hf
  · exact State.getOutput_effect hout
  · exact .unchanged c a

/-! ## The invariants at reset and after Construct (R34, R250) -/

theorem State.constructed_inv (s : State) {words : List Word} (hlen : words.length ≤ maxAddr + 1) :
    (s.constructed words).Inv := by
  have hwf := Memory.constructed_wf words hlen
  exact ⟨⟨Nat.zero_le _, le_rfl, le_rfl, hwf.2.2, nofun, nofun⟩, hwf⟩

/-- Reset with given capacities is Construct of the empty sequence under them. -/
theorem reset_eq_constructed (cfg : Config) :
    ({ State.reset with config := cfg } : State) = ({ State.reset with config := cfg } : State).constructed [] := rfl

theorem reset_inv (cfg : Config) : ({ State.reset with config := cfg } : State).Inv := by
  rw [reset_eq_constructed]
  exact State.constructed_inv _ (Nat.zero_le _)

/-- Settles O33: reset is Construct of the empty sequence, and its three stores are empty. -/
theorem resetHasInvariants : Obligations.ResetHasInvariants := fun cfg =>
  ⟨reset_inv cfg, fun _ _ => Nat.zero_le _, fun _ _ => Nat.zero_le _, fun _ _ => Nat.zero_le _⟩

/-! ## The invariants after a step (R34) -/

/-- The loop test establishes the clause of BUSY, so a step may break it in between. -/
theorem State.endRunUnlessEnabled_inv (h : (s.setBusy false).Inv) : s.endRunUnlessEnabled.Inv := by
  obtain ⟨⟨hpc, hin, hout, hkeys, hwait, -⟩, hwf⟩ := h
  rw [State.endRunUnlessEnabled_eq]
  exact ⟨⟨hpc, hin, hout, hkeys, hwait, fun hbusy => (s.enabled_iff.1 hbusy).2⟩, hwf⟩

theorem State.setBusy_false_inv (h : s.Inv) : (s.setBusy false).Inv := by
  obtain ⟨⟨hpc, hin, hout, hkeys, hwait, -⟩, hwf⟩ := h
  exact ⟨⟨hpc, hin, hout, hkeys, hwait, nofun⟩, hwf⟩

theorem State.raise_inv (h : s.Inv) (f : FaultInfo) : (s.raise f).Inv := by
  obtain ⟨⟨hpc, hin, hout, hkeys, hwait, -⟩, hwf⟩ := h
  exact ⟨⟨hpc, hin, hout, hkeys, hwait, nofun⟩, hwf⟩

/-- An instruction of a Running core keeps every clause of the invariant but that of BUSY. -/
theorem ExecEffect.inv (h : ExecEffect s i t) (hs : s.Inv) (hrun : s.rs = .running) : (t.setBusy false).Inv := by
  have hnotWaiting : s.rs ≠ .waitingForInput := by simp [hrun]
  have ⟨⟨hpc, hin, hout, hkeys, hwait, _⟩, hwf⟩ := hs
  cases h with
  | faulted _ f => exact State.setBusy_false_inv (State.raise_inv hs f)
  | stored _ v hd hn =>
    have hwf' := s.mem.write_wf _ v hwf hd
    exact ⟨⟨hn, hin, hout, hwf'.2.2, hwait, nofun⟩, hwf'⟩
  | blocked _ _ _ hnone =>
    have hdrained : s.inCur = s.inQ.length := by omega
    exact ⟨⟨hpc, hin, hout, hkeys, fun _ => hdrained, nofun⟩, hwf⟩
  | inputTaken _ _ _ v hunread hd hn =>
    have hwf' := s.mem.write_wf _ v hwf hd
    exact ⟨⟨hn, hunread, hout, hwf'.2.2, fun hw => absurd hw hnotWaiting, nofun⟩, hwf'⟩
  | outputAppended _ _ _ v hn =>
    have hout' : s.outCur ≤ (s.outQ ++ [v]).length := by
      rw [List.length_append]
      omega
    exact ⟨⟨hn, hin, hout', hkeys, hwait, nofun⟩, hwf⟩
  | jumped _ hn => exact ⟨⟨hn, hin, hout, hkeys, hwait, nofun⟩, hwf⟩
  | rbOffset _ _ _ _ _ hn => exact ⟨⟨hn, hin, hout, hkeys, hwait, nofun⟩, hwf⟩
  | halted => exact ⟨⟨hpc, hin, hout, hkeys, nofun, nofun⟩, hwf⟩

theorem step_inv (hs : s.Inv) (h : step s = .next t) : t.Inv := by
  obtain ⟨-, rfl⟩ | ⟨he, -, ⟨_, -, rfl⟩ | ⟨i, u, -, hu, rfl⟩⟩ := step_cases h
  · exact State.endRunUnlessEnabled_inv (State.setBusy_false_inv hs)
  · exact State.raise_inv hs _
  · obtain ⟨-, hrun, -⟩ := s.enabled_iff.1 he
    exact State.endRunUnlessEnabled_inv ((exec_effect hu).inv hs hrun)

/-- In Halted no instruction is enabled, so a step leaves RS. -/
theorem step_rs_of_halted (hhalt : s.rs = .halted) (h : step s = .next t) : t.rs = .halted := by
  obtain ⟨-, rfl⟩ | ⟨he, -⟩ := step_cases h
  · rw [State.endRunUnlessEnabled_eq]
    exact hhalt
  · obtain ⟨-, hrun, -⟩ := s.enabled_iff.1 he
    simp [hhalt] at hrun

/-- Settles O34, by the effects of an instruction; the loop test then gives the clause of BUSY. -/
theorem stepKeepsInvariants : Obligations.StepKeepsInvariants :=
  fun _ _ hs h => ⟨step_inv hs h, fun hhalt => step_rs_of_halted hhalt h⟩

/-! ## The invariants after a command (R34, R220) -/

theorem CommandEffect.inv (h : CommandEffect s c a t) (hs : s.Inv) (hidle : s.busy = false) : t.Inv := by
  have ⟨⟨hpc, hin, hout, hkeys, hwait, hbusy⟩, hwf⟩ := hs
  cases h with
  | constructed words hlen => exact s.constructed_inv hlen
  | faulted _ _ f => exact State.raise_inv hs f
  | inputPushed v =>
    have hin' : s.inCur ≤ (s.inQ ++ [v]).length := by
      rw [List.length_append]
      omega
    have hawake : (if s.rs = .waitingForInput then .running else s.rs) ≠ RunState.waitingForInput := by
      split <;> simp [*]
    exact ⟨⟨hpc, hin', hout, hkeys, fun hw => absurd hw hawake, fun hb => by simp [hidle] at hb⟩, hwf⟩
  | runStarted _ hrs hfault => exact ⟨⟨hpc, hin, hout, hkeys, hwait, fun _ => ⟨hrs, hfault⟩⟩, hwf⟩
  | outputRead _ hunread => exact ⟨⟨hpc, hin, hunread, hkeys, hwait, hbusy⟩, hwf⟩
  | unchanged => exact hs

theorem command_inv (hs : s.Inv) (h : command c s = .done a t) : t.Inv :=
  (command_effect h).inv hs (command_cases h).1

/-- A command leaves Halted only where it is Construct, and Construct answers nothing. -/
theorem CommandEffect.of_halted (h : CommandEffect s c a t) (hhalt : s.rs = .halted) :
    (∃ words, c = .construct words ∧ a = .nothing) ∨ t.rs = .halted := by
  cases h with
  | constructed words => exact .inl ⟨words, rfl, rfl⟩
  | inputPushed => exact .inr (by simp [hhalt])
  | runStarted _ hrs => simp [hhalt] at hrs
  | faulted | outputRead | unchanged => exact .inr hhalt

/-- Settles O35, by the effects of a command. -/
theorem commandsKeepInvariants : Obligations.CommandsKeepInvariants := by
  intro c a s t hs h
  refine ⟨command_inv hs h, fun hhalt => ?_⟩
  obtain ⟨words, hc, -⟩ | hrs := (command_effect h).of_halted hhalt
  · exact .inl ⟨words, hc⟩
  · exact .inr hrs

/-! ## The reachable states (R34) -/

theorem Move.inv (hs : s.Inv) : Move s t → t.Inv
  | .engine h => step_inv hs h
  | .host _ _ h => command_inv hs h

theorem Reachable.inv (h : Reachable s) : s.Inv := by
  induction h with
  | start cfg => exact reset_inv cfg
  | move _ m ih => exact m.inv ih

theorem Move.of_halted (hhalt : s.rs = .halted) :
    Move s t → t.rs = .halted ∨ ∃ words, command (.construct words) s = .done .nothing t
  | .engine h => .inl (step_rs_of_halted hhalt h)
  | .host c a h => by
    obtain ⟨words, rfl, rfl⟩ | hrs := (command_effect h).of_halted hhalt
    · exact .inr ⟨words, h⟩
    · exact .inl hrs

/-- Settles O36: reset has the stronger invariant, with the form of memory, and every move keeps it. -/
theorem reachableStatesHaveInvariants : Obligations.ReachableStatesHaveInvariants :=
  ⟨fun _ h => h.inv.1, fun _ _ _ hhalt m => m.of_halted hhalt⟩

/-! ## The queues (R32) -/

/-- IN and OUT grow at their ends at most, and neither cursor goes back. -/
abbrev QueuesGrow (s t : State) : Prop :=
  s.inQ <+: t.inQ ∧ s.outQ <+: t.outQ ∧ s.inCur ≤ t.inCur ∧ s.outCur ≤ t.outCur

theorem QueuesGrow.of_eq (hinQ : t.inQ = s.inQ) (houtQ : t.outQ = s.outQ) (hinCur : t.inCur = s.inCur)
    (houtCur : t.outCur = s.outCur) : QueuesGrow s t :=
  ⟨by rw [hinQ], by rw [houtQ], hinCur.ge, houtCur.ge⟩

theorem ExecEffect.queuesGrow (h : ExecEffect s i t) : QueuesGrow s t := by
  cases h with
  | inputTaken => exact ⟨List.prefix_rfl, List.prefix_rfl, Nat.le_succ _, le_rfl⟩
  | outputAppended => exact ⟨List.prefix_rfl, List.prefix_append _ _, le_rfl, le_rfl⟩
  | faulted | stored | blocked | jumped | rbOffset | halted => exact .of_eq rfl rfl rfl rfl

theorem step_queuesGrow (h : step s = .next t) : QueuesGrow s t := by
  obtain ⟨-, rfl⟩ | ⟨-, -, ⟨_, -, rfl⟩ | ⟨i, u, -, hu, rfl⟩⟩ := step_cases h
  · rw [State.endRunUnlessEnabled_eq]
    exact .of_eq rfl rfl rfl rfl
  · exact .of_eq rfl rfl rfl rfl
  · rw [State.endRunUnlessEnabled_eq]
    exact (exec_effect hu).queuesGrow

theorem CommandEffect.queuesGrow (h : CommandEffect s c a t) (hc : ∀ words, c ≠ .construct words) :
    QueuesGrow s t := by
  cases h with
  | constructed words => exact absurd rfl (hc words)
  | inputPushed => exact ⟨List.prefix_append _ _, List.prefix_rfl, le_rfl, le_rfl⟩
  | outputRead => exact ⟨List.prefix_rfl, List.prefix_rfl, le_rfl, Nat.le_succ _⟩
  | faulted | runStarted | unchanged => exact .of_eq rfl rfl rfl rfl

/-- Settles O39, by the effects of an instruction and of a command. -/
theorem queuesOnlyGrow : Obligations.QueuesOnlyGrow
  | _, _, .inl h => step_queuesGrow h
  | _, _, .inr ⟨_, _, hc, h⟩ => (command_effect h).queuesGrow hc

/-! ## The relative base (R23, R24) -/

theorem ExecEffect.rb (h : ExecEffect s i t) :
    t.rb = s.rb ∨ ∃ m1 m2 m3, i = .relativeBaseOffset m1 m2 m3 ∧
      t.rb.toInt = s.rb.toInt + (s.operand .p1 m1).toInt := by
  cases h with
  | rbOffset m1 m2 m3 _ hnb => exact .inr ⟨m1, m2, m3, rfl, hnb⟩
  | faulted | stored | blocked | inputTaken | outputAppended | jumped | halted => exact .inl rfl

theorem step_rb (h : step s = .next t) :
    t.rb = s.rb ∨ ∃ m1 m2 m3, decode (s.mem.read s.pc) = .ok (.relativeBaseOffset m1 m2 m3) ∧
      t.rb.toInt = s.rb.toInt + (s.operand .p1 m1).toInt := by
  obtain ⟨-, rfl⟩ | ⟨-, -, ⟨_, -, rfl⟩ | ⟨i, u, hi, hu, rfl⟩⟩ := step_cases h
  · rw [State.endRunUnlessEnabled_eq]
    exact .inl rfl
  · exact .inl rfl
  · rw [State.endRunUnlessEnabled_eq]
    obtain hrb | ⟨m1, m2, m3, rfl, hrb⟩ := (exec_effect hu).rb
    · exact .inl hrb
    · exact .inr ⟨m1, m2, m3, hi, hrb⟩

/-- No command but Construct writes the pc, RB or memory (R220). -/
theorem CommandEffect.frame (h : CommandEffect s c a t) (hc : ∀ words, c ≠ .construct words) :
    t.pc = s.pc ∧ t.rb = s.rb ∧ t.mem = s.mem := by
  cases h with
  | constructed words => exact absurd rfl (hc words)
  | faulted | inputPushed | runStarted | outputRead | unchanged => exact ⟨rfl, rfl, rfl⟩

/-- Settles O42, by the effects of an instruction and of a command. -/
theorem rbChangesOnlyByOffset : Obligations.RbChangesOnlyByOffset :=
  ⟨fun _ _ h hne => (step_rb h).resolve_left hne, fun _ _ _ _ hc h => (command_effect h).frame hc⟩

end Sys2Proof.Machine
end

/-! Proofs of the statements of spec/20_memory.md: the split of memory into PRIM and EXT (R46), what a read sees (R45, R47,
R52), and the frames of the instructions that store (R51). -/

namespace Sys2Proof.Machine

variable {s t : State}

/-! ## The split of memory is invisible (R46): what two states that differ in it alone have in common -/

/-- What does not look at memory is the same in both states. -/
theorem FlatEq.congr {α : Type} (h : FlatEq s t) (g : State → α)
    (hg : ∀ (u : State) (m : Memory), g { u with mem := m } = g u) : g s = g t :=
  (congrArg g h.sameRest).trans (hg t s.mem)

theorem FlatEq.pc_eq (h : FlatEq s t) : s.pc = t.pc := h.congr State.pc fun _ _ => rfl
theorem FlatEq.busy_eq (h : FlatEq s t) : s.busy = t.busy := h.congr State.busy fun _ _ => rfl
theorem FlatEq.fault_eq (h : FlatEq s t) : s.fault = t.fault := h.congr State.fault fun _ _ => rfl
theorem FlatEq.rs_eq (h : FlatEq s t) : s.rs = t.rs := h.congr State.rs fun _ _ => rfl
theorem FlatEq.outQ_eq (h : FlatEq s t) : s.outQ = t.outQ := h.congr State.outQ fun _ _ => rfl
theorem FlatEq.outCur_eq (h : FlatEq s t) : s.outCur = t.outCur := h.congr State.outCur fun _ _ => rfl
theorem FlatEq.config_eq (h : FlatEq s t) : s.config = t.config := h.congr State.config fun _ _ => rfl
theorem FlatEq.enabled_eq (h : FlatEq s t) : s.enabled = t.enabled := h.congr State.enabled fun _ _ => rfl
theorem FlatEq.nextInput_eq (h : FlatEq s t) : s.nextInput = t.nextInput := h.congr State.nextInput fun _ _ => rfl
theorem FlatEq.nextOutput_eq (h : FlatEq s t) : s.nextOutput = t.nextOutput := h.congr State.nextOutput fun _ _ => rfl
theorem FlatEq.checkOutput_eq (h : FlatEq s t) : s.checkOutput = t.checkOutput := h.congr State.checkOutput fun _ _ => rfl

theorem FlatEq.nextIp_eq (h : FlatEq s t) (w : Nat) : s.nextIp w = t.nextIp w := h.congr (·.nextIp w) fun _ _ => rfl

theorem FlatEq.relAddr_eq (h : FlatEq s t) (raw : Word) : s.relAddr raw = t.relAddr raw :=
  h.congr (·.relAddr raw) fun _ _ => rfl

theorem FlatEq.checkAddr_eq (h : FlatEq s t) (k : Param) (kind : AddrKind) (a : Int) :
    s.checkAddr k kind a = t.checkAddr k kind a :=
  h.congr (·.checkAddr k kind a) fun _ _ => rfl

theorem FlatEq.offsetRb_eq (h : FlatEq s t) (k : Word) : s.offsetRb k = t.offsetRb k :=
  h.congr (·.offsetRb k) fun _ _ => rfl

theorem FlatEq.jumpOrAdvance_eq (h : FlatEq s t) (taken : Bool) (w : Word) :
    s.jumpOrAdvance taken w = t.jumpOrAdvance taken w :=
  h.congr (·.jumpOrAdvance taken w) fun _ _ => rfl

theorem FlatEq.fetch_eq (h : FlatEq s t) : s.fetch = t.fetch := by
  unfold State.fetch
  rw [h.pc_eq, h.sameMemory]

theorem FlatEq.paramWord_eq (h : FlatEq s t) (k : Param) : s.paramWord k = t.paramWord k := by
  unfold State.paramWord
  rw [h.pc_eq, h.sameMemory]

theorem FlatEq.valueOf_eq (h : FlatEq s t) (k : Param) (m : Mode) : s.valueOf k m = t.valueOf k m := by
  simp only [State.valueOf, h.paramWord_eq, h.relAddr_eq, h.checkAddr_eq, h.sameMemory]

theorem FlatEq.addressOf_eq (h : FlatEq s t) (k : Param) (m : Mode) : s.addressOf k m = t.addressOf k m := by
  simp only [State.addressOf, h.paramWord_eq, h.relAddr_eq, h.checkAddr_eq, h.pc_eq]

/-- With EXT_CAPACITY unbounded every write has room (R44). -/
theorem State.checkWrite_of_unbounded (hcap : s.config.extCapacity = none) (a : Nat) : s.checkWrite a = .ok () :=
  (s.checkWrite_ok a).2 (.inr (.inr (by simp [hcap])))

/-- The one check that looks at the split passes in both states. -/
theorem FlatEq.checkWrite_eq (h : FlatEq s t) (hcap : s.config.extCapacity = none) (a : Nat) :
    s.checkWrite a = t.checkWrite a := by
  rw [State.checkWrite_of_unbounded hcap, State.checkWrite_of_unbounded (h.config_eq ▸ hcap)]

/-! ## What keeps the two states alike -/

theorem FlatEq.store (h : FlatEq s t) (a : Nat) (v : Word) : FlatEq (s.store a v) (t.store a v) where
  sameMemory b := by simp only [State.store_mem, Memory.read_write, h.sameMemory]
  sameRest := congrArg (fun u : State => { u with mem := s.mem.write a v }) h.sameRest

/-- An update of the state that neither reads nor writes memory. -/
abbrev IgnoresMemory (g : State → State) : Prop :=
  ∀ (u : State) (m : Memory), g { u with mem := m } = { g u with mem := m }

theorem FlatEq.map {g : State → State} (hg : IgnoresMemory g) (h : FlatEq s t) : FlatEq (g s) (g t) := by
  have hmem (u : State) : (g u).mem = u.mem := (congrArg State.mem (hg u u.mem) :)
  constructor
  · intro a
    rw [hmem, hmem, h.sameMemory]
  · calc
      g s = g { t with mem := s.mem } := congrArg g h.sameRest
      _ = { g t with mem := s.mem } := hg t s.mem
      _ = { g t with mem := (g s).mem } := by rw [hmem]

theorem endRunUnlessEnabled_ignoresMemory : IgnoresMemory State.endRunUnlessEnabled := by
  intro u m
  rw [State.endRunUnlessEnabled_eq, State.endRunUnlessEnabled_eq]
  rfl

theorem pushInput_ignoresMemory (v : Word) : IgnoresMemory (·.pushInput v) := by
  intro u m
  simp only [State.pushInput]
  split <;> rfl

theorem startRun_ignoresMemory : IgnoresMemory State.startRun := by
  rintro ⟨_, _, rs, _⟩ m
  cases rs <;> rfl

theorem FlatEq.setPc (h : FlatEq s t) (n : Nat) : FlatEq (s.setPc n) (t.setPc n) :=
  h.map (g := (·.setPc n)) fun _ _ => rfl

theorem FlatEq.raise (h : FlatEq s t) (f : FaultInfo) : FlatEq (s.raise f) (t.raise f) :=
  h.map (g := (·.raise f)) fun _ _ => rfl

theorem FlatEq.setRs (h : FlatEq s t) (r : RunState) : FlatEq (s.setRs r) (t.setRs r) :=
  h.map (g := (·.setRs r)) fun _ _ => rfl

theorem FlatEq.setRb (h : FlatEq s t) (v : Word) : FlatEq (s.setRb v) (t.setRb v) :=
  h.map (g := (·.setRb v)) fun _ _ => rfl

theorem FlatEq.consumeInput (h : FlatEq s t) : FlatEq s.consumeInput t.consumeInput :=
  h.map (g := State.consumeInput) fun _ _ => rfl

theorem FlatEq.appendOutput (h : FlatEq s t) (v : Word) : FlatEq (s.appendOutput v) (t.appendOutput v) :=
  h.map (g := (·.appendOutput v)) fun _ _ => rfl

/-- Construct replaces memory, so nothing of the split is left. -/
theorem FlatEq.constructed (h : FlatEq s t) (words : List Word) : FlatEq (s.constructed words) (t.constructed words) where
  sameMemory _ := rfl
  sameRest := congrArg (·.constructed words) h.sameRest

/-! ## The instructions take alike states to alike states -/

/-- Two ends of an instruction's checks that match: the same fault, or commits that differ in the split alone. -/
inductive SameEnd : Except FaultInfo State → Except FaultInfo State → Prop where
  | fault (f : FaultInfo) : SameEnd (.error f) (.error f)
  | commit {s t : State} (h : FlatEq s t) : SameEnd (.ok s) (.ok t)

/-- A check with the same answer in both states, before ends that match. -/
theorem SameEnd.bind {α : Type} {x y : Except FaultInfo α} {f g : α → Except FaultInfo State} (hxy : x = y)
    (hfg : ∀ a, SameEnd (f a) (g a)) : SameEnd (x >>= f) (y >>= g) := by
  subst hxy
  cases x with
  | error e => exact .fault e
  | ok a => exact hfg a

theorem FlatEq.aluCommit_sameEnd (h : FlatEq s t) (hcap : s.config.extCapacity = none) (f : Word → Word → Word)
    (m1 m2 m3 : Mode) : SameEnd (aluCommit f m1 m2 m3 s) (aluCommit f m1 m2 m3 t) :=
  .bind (h.valueOf_eq .p1 m1) fun a => .bind (h.valueOf_eq .p2 m2) fun b => .bind (h.addressOf_eq .p3 m3) fun d =>
    .bind (h.checkWrite_eq hcap d) fun _ => .bind (h.nextIp_eq 4) fun n => .commit ((h.store d (f a b)).setPc n)

theorem FlatEq.inputCommit_sameEnd (h : FlatEq s t) (hcap : s.config.extCapacity = none) (m1 : Mode) :
    SameEnd (inputCommit m1 s) (inputCommit m1 t) := by
  refine .bind (h.addressOf_eq .p1 m1) fun d => ?_
  rw [h.nextInput_eq]
  cases t.nextInput with
  | none => exact .commit (h.setRs .waitingForInput)
  | some v =>
    exact .bind (h.checkWrite_eq hcap d) fun _ => .bind (h.nextIp_eq 2) fun n =>
      .commit ((h.store d v).consumeInput.setPc n)

theorem FlatEq.outputCommit_sameEnd (h : FlatEq s t) (m1 : Mode) :
    SameEnd (outputCommit m1 s) (outputCommit m1 t) :=
  .bind (h.valueOf_eq .p1 m1) fun v => .bind h.checkOutput_eq fun _ => .bind (h.nextIp_eq 2) fun n =>
    .commit ((h.appendOutput v).setPc n)

theorem FlatEq.jumpCommit_sameEnd (h : FlatEq s t) (taken : Word → Bool) (m1 m2 : Mode) :
    SameEnd (jumpCommit taken m1 m2 s) (jumpCommit taken m1 m2 t) :=
  .bind (h.valueOf_eq .p1 m1) fun c => .bind (h.valueOf_eq .p2 m2) fun w =>
    .bind (h.jumpOrAdvance_eq (taken c) w) fun n => .commit (h.setPc n)

theorem FlatEq.relativeBaseCommit_sameEnd (h : FlatEq s t) (m1 : Mode) :
    SameEnd (relativeBaseCommit m1 s) (relativeBaseCommit m1 t) :=
  .bind (h.valueOf_eq .p1 m1) fun k => .bind (h.offsetRb_eq k) fun nb => .bind (h.nextIp_eq 2) fun n =>
    .commit ((h.setRb nb).setPc n)

/-- Two outcomes that match: next states that differ in the split alone, or the same stop of the model. -/
inductive SameOutcome : Outcome → Outcome → Prop where
  | next {s t : State} (h : FlatEq s t) : SameOutcome (.next s) (.next t)
  | fault (r : Fault) : SameOutcome (.fault r) (.fault r)
  | refused (r : Refusal) : SameOutcome (.refused r) (.refused r)

theorem SameOutcome.of_next {o : Outcome} : SameOutcome (.next s) o → ∃ t, o = .next t ∧ FlatEq s t
  | .next h => ⟨_, rfl, h⟩

theorem FlatEq.finish_sameOutcome (h : FlatEq s t) {r q : Except FaultInfo State} (hrq : SameEnd r q) :
    SameOutcome (s.finish r) (t.finish q) := by
  cases hrq with
  | fault f => exact .next (h.raise f)
  | commit hst => exact .next hst

theorem FlatEq.exec_sameOutcome (h : FlatEq s t) (hcap : s.config.extCapacity = none) (i : Instr) :
    SameOutcome (exec i s) (exec i t) := by
  cases i with
  | add | multiply | lessThan | equals =>
    simp only [exec_add, exec_multiply, exec_lessThan, exec_equals]
    exact h.finish_sameOutcome (h.aluCommit_sameEnd hcap _ _ _ _)
  | input m1 =>
    simp only [exec_input]
    exact h.finish_sameOutcome (h.inputCommit_sameEnd hcap m1)
  | output m1 =>
    simp only [exec_output]
    exact h.finish_sameOutcome (h.outputCommit_sameEnd m1)
  | jumpIfTrue m1 m2 | jumpIfFalse m1 m2 =>
    simp only [exec_jumpIfTrue, exec_jumpIfFalse]
    exact h.finish_sameOutcome (h.jumpCommit_sameEnd _ m1 m2)
  | relativeBaseOffset m1 =>
    simp only [exec_relativeBaseOffset]
    exact h.finish_sameOutcome (h.relativeBaseCommit_sameEnd m1)
  | halt => exact .next (h.setRs .halted)

theorem SameOutcome.endOfStep {o p : Outcome} (h : SameOutcome o p) : SameOutcome (endOfStep o) (endOfStep p) := by
  cases h with
  | next hst => exact .next (hst.map endRunUnlessEnabled_ignoresMemory)
  | fault r => exact .fault r
  | refused r => exact .refused r

theorem FlatEq.step_sameOutcome (h : FlatEq s t) (hcap : s.config.extCapacity = none) :
    SameOutcome (step s) (step t) := by
  unfold step engineStep
  rw [h.enabled_eq, h.pc_eq, h.fetch_eq]
  split
  · split
    · split
      · exact (h.exec_sameOutcome hcap _).endOfStep
      · exact .next (h.raise _)
    · exact .fault _
  · exact .next (h.map endRunUnlessEnabled_ignoresMemory)

/-! ## The host commands answer alike states alike -/

/-- Two ends of a command that match: the same answer with states that differ in the split alone, or both refused. -/
inductive SameResult : CommandResult → CommandResult → Prop where
  | done (a : Answer) {s t : State} (h : FlatEq s t) : SameResult (.done a s) (.done a t)
  | refused : SameResult .refused .refused

theorem SameResult.of_done {a : Answer} {r : CommandResult} :
    SameResult (.done a s) r → ∃ t, r = .done a t ∧ FlatEq s t
  | .done _ h => ⟨_, rfl, h⟩

theorem FlatEq.unlessFaulted_sameResult (h : FlatEq s t) {r q : CommandResult} (hrq : SameResult r q) :
    SameResult (s.unlessFaulted r) (t.unlessFaulted q) := by
  unfold State.unlessFaulted
  rw [h.fault_eq]
  split
  · exact hrq
  · exact .refused

theorem FlatEq.getOutput_sameResult (h : FlatEq s t) : SameResult s.getOutput t.getOutput := by
  unfold State.getOutput
  rw [h.nextOutput_eq]
  split
  · exact .done _ h
  · exact .done _ (h.map (g := fun u => { u with outCur := u.outCur + 1 }) fun _ _ => rfl)

theorem FlatEq.command_sameResult (h : FlatEq s t) (c : Command) : SameResult (command c s) (command c t) := by
  unfold command
  rw [h.busy_eq]
  split
  · exact .refused
  cases c with
  | construct words =>
    dsimp only
    split
    · exact .done _ (h.constructed words)
    · exact .refused
  | pushInput v => exact h.unlessFaulted_sameResult (.done _ (h.map (pushInput_ignoresMemory v)))
  | run => exact h.unlessFaulted_sameResult (.done _ (h.map startRun_ignoresMemory))
  | getOutput => exact h.unlessFaulted_sameResult h.getOutput_sameResult
  | hasOutput | lastOutput | isHalted | isHaltedOrBlocked =>
    simp only [h.outCur_eq, h.outQ_eq, h.rs_eq]
    exact h.unlessFaulted_sameResult (.done _ h)
  | peekMemory a =>
    refine h.unlessFaulted_sameResult ?_
    rw [h.sameMemory]
    split
    · exact .done _ h
    · exact .refused

/-- Settles O32: both sides make the same checks, since the one that looks at the split always passes, and their commits
then differ in the split alone. -/
theorem memorySplitIsInvisible : Obligations.MemorySplitIsInvisible := by
  intro s t h hcap
  constructor
  · intro s' hs
    have hstep := h.step_sameOutcome hcap
    rw [hs] at hstep
    exact hstep.of_next
  · intro c a s' hs
    have hcommand := h.command_sameResult c
    rw [hs] at hcommand
    exact hcommand.of_done

/-! ## What a read sees (R45, R47, R52) -/

theorem Memory.read_constructed (words : List Word) (a : Nat) : (⟨words, []⟩ : Memory).read a = (words[a]?).getD 0 := by
  unfold Memory.read
  split
  · exact List.getD_eq_getElem?_getD
  · rename_i ha
    rw [List.getElem?_eq_none (Nat.le_of_not_lt ha)]
    rfl

/-- Settles O31. -/
theorem constructedMemoryReads : Obligations.ConstructedMemoryReads :=
  fun _ words a => Memory.read_constructed words a

/-- Settles O29, by induction on the writes from the last one: it is to the address, or a read does not see it. -/
theorem lastWriteIsRead : Obligations.LastWriteIsRead := by
  intro m writes a
  induction writes using List.reverseRecOn with
  | nil => rfl
  | append_singleton earlier p ih =>
    rw [List.foldl_concat, Memory.read_write, List.filter_append]
    by_cases hp : p.1 = a
    · simp [hp]
    · simp [hp, Ne.symm hp, ih]

/-- Settles O30: no write is to the address, so it reads as Construct left it, beyond the words. -/
theorem neverWrittenReadsZero : Obligations.NeverWrittenReadsZero := by
  intro words writes a hlen hnot
  have hnone : writes.filter (fun p => p.1 == a) = [] := by
    rw [List.filter_eq_nil_iff]
    intro p hp heq
    exact hnot (List.mem_map.2 ⟨p, hp, by simpa using heq⟩)
  have hread := lastWriteIsRead ⟨words, []⟩ writes a
  rw [hnone] at hread
  calc
    _ = (⟨words, []⟩ : Memory).read a := hread
    _ = (words[a]?).getD 0 := Memory.read_constructed words a
    _ = 0 := by rw [List.getElem?_eq_none hlen]; rfl

/-! ## The frames of the instructions that store (40_alu.md, 41_io.md; R51) -/

/-- A write leaves every other address: its value, and whether it has an entry in EXT. -/
theorem Memory.write_frame (m : Memory) {a d : Nat} (v : Word) (hne : a ≠ d) :
    (m.write d v).read a = m.read a ∧ (a ∈ (m.write d v).keys ↔ a ∈ m.keys) := by
  rw [Memory.read_write, Memory.mem_keys_write]
  simp [hne]

/-- A write to the address of a write operand leaves every address the operand does not name. -/
theorem State.write_operand_frame {k : Param} {m : Mode} {d : Nat} (hd : s.addressOf k m = .ok d) (v : Word) (a : Nat)
    (ha : s.addressOf k m ≠ .ok a) :
    (s.mem.write d v).read a = s.mem.read a ∧ (a ∈ (s.mem.write d v).keys ↔ a ∈ s.mem.keys) := by
  refine s.mem.write_frame v ?_
  rintro rfl
  exact ha hd

/-- The four instructions of the ALU family run the one datapath, each with its own function (40_alu.md R106). -/
theorem exec_alu {m1 m2 m3 : Mode} {i : Instr}
    (hi : i ∈ [Instr.add m1 m2 m3, Instr.multiply m1 m2 m3, Instr.lessThan m1 m2 m3, Instr.equals m1 m2 m3]) :
    ∃ f, exec i s = s.finish (aluCommit f m1 m2 m3 s) := by
  simp only [List.mem_cons, List.not_mem_nil, or_false] at hi
  obtain rfl | rfl | rfl | rfl := hi
  · exact ⟨aluSum, exec_add m1 m2 m3⟩
  · exact ⟨aluProduct, exec_multiply m1 m2 m3⟩
  · exact ⟨aluLess, exec_lessThan m1 m2 m3⟩
  · exact ⟨aluEqual, exec_equals m1 m2 m3⟩

/-- Settles O26: the datapath writes the pc and one Word, at the address of its write operand, and a fault neither. -/
theorem aluFrame : Obligations.AluFrame := by
  intro m1 m2 m3 i s t hi h
  obtain ⟨f, hexec⟩ := exec_alu (s := s) hi
  obtain hok | ⟨_, -, rfl⟩ := (s.finish_next t _).1 (hexec.symm.trans h)
  · obtain ⟨a, b, d, -, -, hd, -, -, rfl⟩ := aluCommit_ok hok
    exact ⟨rfl, rfl, rfl, rfl, rfl, rfl, rfl, s.mem.size_write d _, s.write_operand_frame hd (f a b)⟩
  · exact ⟨rfl, rfl, rfl, rfl, rfl, rfl, rfl, rfl, fun _ _ => ⟨rfl, .rfl⟩⟩

/-- Settles O27, by the ways Input ends: blocked, it writes RS alone; with an unread input it stores at the address of its
write operand; and a fault leaves all of these. -/
theorem inputFrame : Obligations.InputFrame := by
  intro m1 m2 m3 s t h
  obtain hok | ⟨_, -, rfl⟩ := (s.finish_next t _).1 ((exec_input m1 m2 m3).symm.trans h)
  · obtain ⟨d, hd, ⟨hnone, rfl⟩ | ⟨v, hsome, -, -, rfl⟩⟩ := inputCommit_ok hok
    · have hin : ¬ s.HasInput := s.nextInput_eq_none.1 hnone
      exact ⟨rfl, rfl, rfl, rfl, rfl, rfl, fun h => absurd h hin, fun _ => ⟨rfl, rfl, rfl⟩, fun _ _ => ⟨rfl, .rfl⟩⟩
    · have hin : s.HasInput := (List.getElem?_eq_some_iff.1 hsome).1
      exact ⟨rfl, rfl, rfl, rfl, rfl, s.mem.size_write d v, fun _ => rfl, fun h => absurd hin h,
        s.write_operand_frame hd v⟩
  · exact ⟨rfl, rfl, rfl, rfl, rfl, rfl, fun _ => rfl, fun _ => ⟨rfl, rfl, rfl⟩, fun _ _ => ⟨rfl, .rfl⟩⟩

end Sys2Proof.Machine

/-! Proofs of the statements of spec/30_encoding.md: the decoder and the encoder (R60 to R70, R77, R79), the operand
resolver (R71 to R76) and the step that runs the decoded instruction (R80). -/

namespace Sys2Proof

/-! ## The digits of an instruction word (R61, R64, R65) -/

theorem Mode.toDigit_le (m : Mode) : m.toDigit ≤ 2 := by
  cases m <;> decide

theorem Mode.ofDigit_eq_some {d : Nat} {m : Mode} : Mode.ofDigit d = some m ↔ d = m.toDigit := by
  constructor
  · intro h
    unfold Mode.ofDigit at h
    split at h <;> cases h <;> rfl
  · rintro rfl
    cases m <;> rfl

theorem Mode.ofDigit_eq_none {d : Nat} : Mode.ofDigit d = none ↔ 2 < d := by
  constructor
  · intro hnone
    by_contra hle
    obtain rfl | rfl | rfl : d = 0 ∨ d = 1 ∨ d = 2 := by omega
    all_goals cases hnone
  · intro hd
    exact Option.eq_none_iff_forall_ne_some.2 fun m hm => by
      have hle := m.toDigit_le
      have heq := Mode.ofDigit_eq_some.1 hm
      omega

theorem modeOf_eq_ok {k : Param} {n : Nat} {m : Mode} : modeOf k n = .ok m ↔ digit (k.index + 1) n = m.toDigit := by
  rw [← Mode.ofDigit_eq_some]
  unfold modeOf
  split <;> simp [*]

theorem modeOf_eq_error {k : Param} {n : Nat} (hd : 2 < digit (k.index + 1) n) :
    modeOf k n = .error (.unknownMode k) := by
  unfold modeOf
  rw [Mode.ofDigit_eq_none.2 hd]

theorem exists_modeOf_eq_ok {k : Param} {n : Nat} (hd : ¬ 2 < digit (k.index + 1) n) : ∃ m, modeOf k n = .ok m := by
  obtain ⟨m, hm⟩ := Option.ne_none_iff_exists'.1 (mt Mode.ofDigit_eq_none.1 hd)
  exact ⟨m, modeOf_eq_ok.2 (Mode.ofDigit_eq_some.1 hm)⟩

/-- The mode digits are among the low five. -/
theorem modeOf_mod (k : Param) (n : Nat) : modeOf k (n % 100000) = modeOf k n := by
  have hdigit : digit (k.index + 1) (n % 100000) = digit (k.index + 1) n := by
    cases k <;> simp only [digit, Param.index] <;> omega
  unfold modeOf
  rw [hdigit]

/-! ## The Operation table (R69) -/

theorem operationOf_eq_none {n : Nat} : operationOf n = none ↔ n ∉ [1, 2, 3, 4, 5, 6, 7, 8, 9, 99] := by
  unfold operationOf
  split <;> simp_all

/-- The encoder and the decoder use one table: an opcode's operation is encoded with that opcode. -/
theorem encode_of_operationOf {n : Nat} {operation : Mode → Mode → Mode → Instr} (ho : operationOf n = some operation)
    (m1 m2 m3 : Mode) : encode (operation m1 m2 m3) = wordOf n m1 m2 m3 := by
  unfold operationOf at ho
  split at ho <;> cases ho <;> rfl

/-- Every instruction has a canonical word. -/
theorem canonicalWord : ∀ i : Instr, Laws.CanonicalWord.Statement i
  | .add m1 m2 m3 => Laws.CanonicalWord.add m1 m2 m3
  | .multiply m1 m2 m3 => Laws.CanonicalWord.multiply m1 m2 m3
  | .input m1 m2 m3 => Laws.CanonicalWord.input m1 m2 m3
  | .output m1 m2 m3 => Laws.CanonicalWord.output m1 m2 m3
  | .jumpIfTrue m1 m2 m3 => Laws.CanonicalWord.jumpIfTrue m1 m2 m3
  | .jumpIfFalse m1 m2 m3 => Laws.CanonicalWord.jumpIfFalse m1 m2 m3
  | .lessThan m1 m2 m3 => Laws.CanonicalWord.lessThan m1 m2 m3
  | .equals m1 m2 m3 => Laws.CanonicalWord.equals m1 m2 m3
  | .relativeBaseOffset m1 m2 m3 => Laws.CanonicalWord.relativeBaseOffset m1 m2 m3
  | .halt m1 m2 m3 => Laws.CanonicalWord.halt m1 m2 m3


/-! ## The decoder (R66, R67) -/

theorem decode_of_neg {w : Word} (hneg : w.toInt < 0) : decode w = .error .unknownOpcode := if_pos hneg

theorem decode_of_operationOf_none {w : Word} (hnone : operationOf (w.toNat % 100) = none) :
    decode w = .error .unknownOpcode := by
  unfold decode
  rw [hnone, ite_self]

theorem decode_of_operationOf_some {w : Word} {operation : Mode → Mode → Mode → Instr} (hw : 0 ≤ w.toInt)
    (ho : operationOf (w.toNat % 100) = some operation) :
    decode w = do
      let m1 ← modeOf .p1 w.toNat
      let m2 ← modeOf .p2 w.toNat
      let m3 ← modeOf .p3 w.toNat
      return operation m1 m2 m3 := by
  unfold decode
  rw [if_neg (Int.not_lt.2 hw), ho]

/-- What the decoder accepts, digit by digit: a non-negative word whose low two digits name an operation and whose mode
digits name the modes. -/
theorem decode_eq_ok {w : Word} {i : Instr} :
    decode w = .ok i ↔ 0 ≤ w.toInt ∧ ∃ operation m1 m2 m3, operationOf (w.toNat % 100) = some operation ∧
      digit 2 w.toNat = m1.toDigit ∧ digit 3 w.toNat = m2.toDigit ∧ digit 4 w.toNat = m3.toDigit ∧
      i = operation m1 m2 m3 := by
  constructor
  · intro h
    have hw : 0 ≤ w.toInt := by
      by_contra hneg
      rw [decode_of_neg (Int.not_le.1 hneg)] at h
      cases h
    cases ho : operationOf (w.toNat % 100) with
    | none =>
      rw [decode_of_operationOf_none ho] at h
      cases h
    | some operation =>
      rw [decode_of_operationOf_some hw ho] at h
      obtain ⟨m1, h1, h⟩ := (Machine.bind_ok_iff _ _ _).1 h
      obtain ⟨m2, h2, h⟩ := (Machine.bind_ok_iff _ _ _).1 h
      obtain ⟨m3, h3, h⟩ := (Machine.bind_ok_iff _ _ _).1 h
      cases h
      exact ⟨hw, operation, m1, m2, m3, rfl, modeOf_eq_ok.1 h1, modeOf_eq_ok.1 h2, modeOf_eq_ok.1 h3, rfl⟩
  · rintro ⟨hw, operation, m1, m2, m3, ho, h1, h2, h3, rfl⟩
    have hm1 : modeOf .p1 w.toNat = .ok m1 := modeOf_eq_ok.2 h1
    have hm2 : modeOf .p2 w.toNat = .ok m2 := modeOf_eq_ok.2 h2
    have hm3 : modeOf .p3 w.toNat = .ok m3 := modeOf_eq_ok.2 h3
    rw [decode_of_operationOf_some hw ho, hm1, hm2, hm3]
    rfl

/-- The low five digits of a number are an opcode and three modes exactly where each of its digits is. -/
theorem mod_eq_iff_digits {n c : Nat} (hc : c < 100) (m1 m2 m3 : Mode) :
    n % 100000 = c + 100 * m1.toDigit + 1000 * m2.toDigit + 10000 * m3.toDigit ↔
      n % 100 = c ∧ digit 2 n = m1.toDigit ∧ digit 3 n = m2.toDigit ∧ digit 4 n = m3.toDigit := by
  have h1 := m1.toDigit_le
  have h2 := m2.toDigit_le
  have h3 := m3.toDigit_le
  simp only [digit]
  omega

theorem encode_toNat_of_operationOf {n : Nat} {operation : Mode → Mode → Mode → Instr} (hn : n < 100)
    (ho : operationOf n = some operation) (m1 m2 m3 : Mode) :
    (encode (operation m1 m2 m3)).toNat = n + 100 * m1.toDigit + 1000 * m2.toDigit + 10000 * m3.toDigit := by
  rw [encode_of_operationOf ho, Laws.wordOf_toNat n hn]

/-- Settles O4: an accepted word has the opcode and the mode digits of its instruction, and these are the digits of the
instruction's canonical word. -/
theorem decodeAcceptsExactlyCanonicalLowDigits : Obligations.DecodeAcceptsExactlyCanonicalLowDigits := by
  intro w i
  have hlt (n : Nat) : n % 100 < 100 := Nat.mod_lt n (by decide)
  rw [decode_eq_ok]
  refine and_congr_right fun _ => ⟨?_, fun hlow => ?_⟩
  · rintro ⟨operation, m1, m2, m3, ho, h1, h2, h3, rfl⟩
    rw [encode_toNat_of_operationOf (hlt _) ho]
    exact (mod_eq_iff_digits (hlt _) m1 m2 m3).2 ⟨rfl, h1, h2, h3⟩
  · obtain ⟨-, -, operation, m1, m2, m3, ho, rfl⟩ := canonicalWord i
    rw [encode_toNat_of_operationOf (hlt _) ho] at hlow
    obtain ⟨hop, h1, h2, h3⟩ := (mod_eq_iff_digits (hlt _) m1 m2 m3).1 hlow
    rw [← hop] at ho
    exact ⟨operation, m1, m2, m3, ho, h1, h2, h3, rfl⟩

/-- The encoding of an instruction has no digits beyond the five that the decoder reads. -/
theorem decode_encode (i : Instr) : decode (encode i) = .ok i := by
  obtain ⟨hsign, hlt, -⟩ := canonicalWord i
  exact (decodeAcceptsExactlyCanonicalLowDigits _ i).2 ⟨hsign, Nat.mod_eq_of_lt hlt⟩

theorem encodeWords_of_length {i : Instr} {r : List Word} (hlen : r.length = i.paramCount) :
    encodeWords i r = encode i :: r := by
  unfold encodeWords
  rw [List.take_left' hlen]

/-- Settles O2: each row of the table is the opcode and the width of its operation, and every instruction decodes from its
encoding. -/
theorem encodedInstructionDecodes : Obligations.EncodedInstructionDecodes := by
  intro n operation count m1 m2 m3 r hrow hlen
  obtain ⟨hword, hcount⟩ : encode (operation m1 m2 m3) = wordOf n m1 m2 m3 ∧ (operation m1 m2 m3).paramCount = count := by
    fin_cases hrow <;> exact ⟨rfl, rfl⟩
  change encodeWords (operation m1 m2 m3) r = wordOf n m1 m2 m3 :: r ∧ decode (wordOf n m1 m2 m3) = _
  rw [← hword]
  exact ⟨encodeWords_of_length (hlen.trans hcount.symm), decode_encode _⟩

/-- Two non-negative words with the same low five digits decode alike: the decoder looks at their sign, at their opcode and
at their mode digits. -/
theorem decode_congr {v w : Word} (hv : 0 ≤ v.toInt) (hw : 0 ≤ w.toInt)
    (hlow : v.toNat % 100000 = w.toNat % 100000) : decode v = decode w := by
  have hop : v.toNat % 100 = w.toNat % 100 := by omega
  have hmode (k : Param) : modeOf k v.toNat = modeOf k w.toNat := by
    rw [← modeOf_mod k v.toNat, hlow, modeOf_mod]
  cases ho : operationOf (w.toNat % 100) with
  | none => rw [decode_of_operationOf_none (hop ▸ ho), decode_of_operationOf_none ho]
  | some operation =>
    rw [decode_of_operationOf_some hv (hop ▸ ho), decode_of_operationOf_some hw ho, hmode, hmode, hmode]

/-- Settles O3: the two words share the opcode and the mode digits; the example is an evaluation of the decoder. -/
theorem decodeExaminesFiveDigits : Obligations.DecodeExaminesFiveDigits :=
  ⟨fun _ _ hv hw hlow => decode_congr hv hw hlow, rfl, rfl⟩

/-- Settles O5: a legal opcode leaves the three modes, which fail at the first digit above 2. -/
theorem decodeChecksInOrder : Obligations.DecodeChecksInOrder := by
  intro w
  refine ⟨decode_of_neg, fun _ hop => decode_of_operationOf_none (operationOf_eq_none.2 hop), fun hw hop => ?_⟩
  obtain ⟨operation, ho⟩ := Option.ne_none_iff_exists'.1 (mt operationOf_eq_none.1 (not_not.2 hop))
  rw [decode_of_operationOf_some hw ho]
  split
  · next h1 =>
    rw [modeOf_eq_error (k := .p1) h1]
    rfl
  · next h1 =>
    obtain ⟨m1, hm1⟩ := exists_modeOf_eq_ok (k := .p1) h1
    rw [hm1]
    split
    · next h2 =>
      rw [modeOf_eq_error (k := .p2) h2]
      rfl
    · next h2 =>
      obtain ⟨m2, hm2⟩ := exists_modeOf_eq_ok (k := .p2) h2
      rw [hm2]
      split
      · next h3 =>
        rw [modeOf_eq_error (k := .p3) h3]
        rfl
      · next h3 =>
        obtain ⟨m3, hm3⟩ := exists_modeOf_eq_ok (k := .p3) h3
        rw [hm3]
        exact ⟨operation m1 m2 m3, rfl⟩

end Sys2Proof

namespace Sys2Proof.Machine

/-! ## The operand resolver (R71 to R74) -/

variable (s : State) (k : Param)

theorem State.paramWord_of_fetchable (hf : s.Fetchable k) : s.paramWord k = .ok (s.raw k) :=
  (s.paramWord_ok k _).2 ⟨hf, rfl⟩

theorem State.paramWord_of_not_fetchable (hf : ¬ s.Fetchable k) :
    s.paramWord k = .error (.invalidAddress s.pc (some k) (s.pc + k.index : Nat) .operandFetch) :=
  (s.paramWord_error k _).2 ⟨hf, rfl⟩

theorem State.checkAddr_eq (kind : AddrKind) (a : Int) :
    s.checkAddr k kind a =
      if ¬ (0 ≤ a ∧ a ≤ maxAddr) then .error (.invalidAddress s.pc (some k) a kind) else .ok a.toNat := by
  split
  · next ha => exact (s.checkAddr_error k kind a _).2 ⟨ha, rfl⟩
  · next ha => exact (s.checkAddr_ok k kind a _).2 ⟨not_not.1 ha, rfl⟩

variable {s k} {m : Mode}

theorem State.valueOf_of_not_fetchable (hf : ¬ s.Fetchable k) :
    s.valueOf k m = .error (.invalidAddress s.pc (some k) (s.pc + k.index : Nat) .operandFetch) := by
  unfold State.valueOf
  rw [s.paramWord_of_not_fetchable k hf]
  rfl

theorem State.valueOf_immediate (hf : s.Fetchable k) : s.valueOf k .immediate = .ok (s.raw k) := by
  unfold State.valueOf
  rw [s.paramWord_of_fetchable k hf]
  rfl

/-- A fetchable value operand that is not Immediate is the word at its address, once the address is checked. -/
theorem State.valueOf_of_not_immediate (hf : s.Fetchable k) (hm : m ≠ .immediate) :
    s.valueOf k m = (s.checkAddr k .read (s.target k m)).map s.mem.read := by
  unfold State.valueOf
  rw [s.paramWord_of_fetchable k hf]
  cases m with
  | immediate => exact absurd rfl hm
  | position => rfl
  | relative => rfl

theorem State.addressOf_of_not_fetchable (hf : ¬ s.Fetchable k) :
    s.addressOf k m = .error (.invalidAddress s.pc (some k) (s.pc + k.index : Nat) .operandFetch) := by
  unfold State.addressOf
  rw [s.paramWord_of_not_fetchable k hf]
  rfl

theorem State.addressOf_immediate (hf : s.Fetchable k) :
    s.addressOf k .immediate = .error (.immediateWriteTarget s.pc k) := by
  unfold State.addressOf
  rw [s.paramWord_of_fetchable k hf]
  rfl

/-- A fetchable write operand that is not Immediate is its address, once that is checked. -/
theorem State.addressOf_of_not_immediate (hf : s.Fetchable k) (hm : m ≠ .immediate) :
    s.addressOf k m = s.checkAddr k .write (s.target k m) := by
  unfold State.addressOf
  rw [s.paramWord_of_fetchable k hf]
  cases m with
  | immediate => exact absurd rfl hm
  | position => rfl
  | relative => rfl

/-- Settles O13, by the three checks of a value operand in their order: the fetch, the mode, the address. -/
theorem valueOperandResolves : Obligations.ValueOperandResolves := by
  intro s k m
  split
  · next hf => exact State.valueOf_of_not_fetchable hf
  · next hf =>
    have hfetch : s.Fetchable k := not_not.1 hf
    split
    · next hm =>
      subst hm
      exact State.valueOf_immediate hfetch
    · next hm =>
      rw [State.valueOf_of_not_immediate hfetch hm, s.checkAddr_eq]
      split <;> rfl

/-- Settles O14, by the three checks of a write operand in their order: the fetch, the mode, the address. -/
theorem writeOperandResolves : Obligations.WriteOperandResolves := by
  intro s k m
  split
  · next hf => exact State.addressOf_of_not_fetchable hf
  · next hf =>
    have hfetch : s.Fetchable k := not_not.1 hf
    split
    · next hm =>
      subst hm
      exact State.addressOf_immediate hfetch
    · next hm =>
      rw [State.addressOf_of_not_immediate hfetch hm]
      exact s.checkAddr_eq k .write (s.target k m)

/-! ## The step (R80; 60_exceptions.md R223) -/

variable {i : Instr}

theorem step_of_not_enabled (he : s.enabled = false) : step s = .next s.endRunUnlessEnabled := by
  unfold step engineStep
  rw [he]
  rfl

theorem step_of_decode_ok (he : s.enabled = true) (hpc : s.pc ≤ maxAddr) (hdec : decode s.fetch = .ok i) :
    step s = endOfStep (exec i s) := by
  unfold step engineStep
  rw [if_pos he, if_pos hpc, hdec]

theorem step_of_decode_error {e : DecodeError} (he : s.enabled = true) (hpc : s.pc ≤ maxAddr)
    (hdec : decode s.fetch = .error e) : step s = .next (s.raise (decodeFault s.pc s.fetch e)) := by
  unfold step engineStep
  rw [if_pos he, if_pos hpc, hdec]

theorem State.enabled_eq_decide (s : State) :
    s.enabled = decide (s.busy = true ∧ s.rs = .running ∧ s.fault = none) :=
  Bool.eq_iff_iff.2 (by rw [s.enabled_iff, decide_eq_true_iff])

/-- Settles O8: the loop test follows the instruction within its step. That the step which ends a Run also clears BUSY is
the model's choice (notes/assumptions/3.md). -/
theorem stepRunsDecodedInstruction : Obligations.StepRunsDecodedInstruction := by
  intro s t i hstep hdec hexec
  obtain ⟨hbusy, hrs, hfault, hpc⟩ := hstep
  have he : s.enabled = true := s.enabled_iff.2 ⟨hbusy, hrs, hfault⟩
  calc
    step s = endOfStep (exec i s) := step_of_decode_ok he hpc hdec
    _ = .next t.endRunUnlessEnabled := by rw [hexec]; rfl
    _ = .next (t.setBusy t.enabled) := by rw [t.endRunUnlessEnabled_eq]
    _ = .next { t with busy := decide (t.busy = true ∧ t.rs = .running ∧ t.fault = none) } := by
      rw [t.enabled_eq_decide]
      rfl

theorem State.exists_finish_next (s : State) (r : Except FaultInfo State) : ∃ t, s.finish r = .next t := by
  cases r with
  | ok t => exact ⟨t, rfl⟩
  | error f => exact ⟨s.raise f, rfl⟩

theorem exists_exec_next (i : Instr) (s : State) : ∃ t, exec i s = .next t := by
  cases i with
  | add | multiply | lessThan | equals | input | output | jumpIfTrue | jumpIfFalse | relativeBaseOffset =>
    simp only [exec_add, exec_multiply, exec_lessThan, exec_equals, exec_input, exec_output, exec_jumpIfTrue,
      exec_jumpIfFalse, exec_relativeBaseOffset]
    exact s.exists_finish_next _
  | halt => exact ⟨s.setRs .halted, rfl⟩

/-- A step stops the model only at a pc that is no address. -/
theorem exists_step_next (hpc : s.pc ≤ maxAddr) : ∃ t, step s = .next t := by
  cases he : s.enabled with
  | false => exact ⟨_, step_of_not_enabled he⟩
  | true =>
    cases hdec : decode s.fetch with
    | error e => exact ⟨_, step_of_decode_error he hpc hdec⟩
    | ok i =>
      obtain ⟨u, hu⟩ := exists_exec_next i s
      rw [step_of_decode_ok he hpc hdec, hu]
      exact ⟨u.endRunUnlessEnabled, rfl⟩

/-- Settles O38: of the invariants it needs only that the pc is an address. That a step which is not enabled answers too is
the model's choice (notes/assumptions/3.md). -/
theorem machineNeverStops : Obligations.MachineNeverStops :=
  fun _ ⟨⟨hpc, _⟩, _⟩ => exists_step_next hpc

end Sys2Proof.Machine

/-! Proofs of the statements of spec/40_alu.md: what each instruction of the ALU family does (R100 to R106). A resolver or
a check answers what its list of checks says (`checked`); so the datapath, their sequence, answers what the family's list
of checks says, which is `aluChecks`. -/

namespace Sys2Proof.Machine

variable {α β : Type} {s : State} {k : Param} {m m1 m2 m3 : Mode}

/-! ## Lists of checks (30_encoding.md R83; 60_exceptions.md R209) -/

/-- The answer `a` where every check of a list passes, else the fault of the first check that fails. -/
def checked (checks : List (Option FaultInfo)) (a : α) : Except FaultInfo α :=
  match firstOf checks with
  | none => .ok a
  | some f => .error f

theorem checked_of_none {l : List (Option FaultInfo)} (a : α) (h : firstOf l = none) : checked l a = .ok a := by
  unfold checked
  rw [h]

theorem checked_of_some {l : List (Option FaultInfo)} {f : FaultInfo} (a : α) (h : firstOf l = some f) :
    checked l a = .error f := by
  unfold checked
  rw [h]

theorem checked_faultUnless_cons {p : Prop} [Decidable p] (f : FaultInfo) (rest : List (Option FaultInfo)) (a : α) :
    checked (faultUnless (decide p) f :: rest) a = if p then checked rest a else .error f := by
  by_cases hp : p <;> simp [faultUnless, checked, firstOf, hp]

theorem firstOf_append (l r : List (Option FaultInfo)) : firstOf (l ++ r) = (firstOf l).or (firstOf r) := by
  induction l with
  | nil => rfl
  | cons c rest ih =>
    cases c with
    | none => exact ih
    | some f => rfl

/-- Checks made in sequence are one list of checks. -/
theorem bind_checked {x : Except FaultInfo α} {g : α → Except FaultInfo β} {l r : List (Option FaultInfo)} {a : α} {b : β}
    (hx : x = checked l a) (hg : g a = checked r b) : (x >>= g) = checked (l ++ r) b := by
  cases hl : firstOf l with
  | none =>
    have hall : firstOf (l ++ r) = firstOf r := by rw [firstOf_append, hl, Option.none_or]
    rw [hx, checked_of_none a hl]
    unfold checked at hg ⊢
    rw [hall]
    exact hg
  | some f =>
    have hall : firstOf (l ++ r) = some f := by rw [firstOf_append, hl, Option.some_or]
    rw [hx, checked_of_some a hl, checked_of_some b hall]
    rfl

theorem firstOf_append_eq_none {l r : List (Option FaultInfo)} :
    firstOf (l ++ r) = none ↔ firstOf l = none ∧ firstOf r = none := by
  rw [firstOf_append, Option.or_eq_none_iff]

theorem firstOf_faultUnless_cons_eq_none {p : Prop} [Decidable p] {f : FaultInfo} {rest : List (Option FaultInfo)} :
    firstOf (faultUnless (decide p) f :: rest) = none ↔ p ∧ firstOf rest = none := by
  by_cases hp : p <;> simp [faultUnless, firstOf, hp]

theorem firstOf_readChecks_eq_none : firstOf (readChecks s k m) = none ↔ s.Readable k m := by
  unfold readChecks
  rw [firstOf_faultUnless_cons_eq_none, firstOf_faultUnless_cons_eq_none]
  exact and_congr_right fun _ => and_iff_left rfl

theorem firstOf_writeChecks_eq_none : firstOf (writeChecks s k m) = none ↔ s.Writable k m := by
  unfold writeChecks
  rw [firstOf_faultUnless_cons_eq_none, firstOf_faultUnless_cons_eq_none, firstOf_faultUnless_cons_eq_none]
  exact and_congr_right fun _ => and_congr_right fun _ => and_iff_left rfl

/-! ## The resolvers and the checks of an instruction, as lists of checks (R71, R72, R82; 20_memory.md R44) -/

/-- Immediate makes no check of an address, and its operand is the raw word. -/
theorem State.valueOf_eq_checked (s : State) (k : Param) (m : Mode) :
    s.valueOf k m = checked (readChecks s k m) (s.operand k m) := by
  rw [valueOperandResolves, readChecks, checked_faultUnless_cons, checked_faultUnless_cons, ite_not, ite_not]
  cases m with
  | immediate =>
    simp only [true_or, if_true]
    rfl
  | position | relative =>
    simp only [reduceCtorEq, if_false, false_or]
    rfl

theorem State.addressOf_eq_checked (s : State) (k : Param) (m : Mode) :
    s.addressOf k m = checked (writeChecks s k m) (s.dst k m) := by
  rw [writeOperandResolves, writeChecks, checked_faultUnless_cons, checked_faultUnless_cons, checked_faultUnless_cons,
    ite_not, ite_not, ite_not]
  rfl

theorem State.checkWrite_eq_checked (s : State) (a : Nat) : s.checkWrite a = checked [roomCheck s a] () := by
  rw [roomCheck, checked_faultUnless_cons]
  split
  · next hroom => exact (s.checkWrite_ok a).2 hroom
  · next hfull => exact (s.checkWrite_error a _).2 ⟨hfull, rfl⟩

theorem State.nextIp_eq_checked (s : State) (w : Nat) : s.nextIp w = checked [advanceCheck s w] (s.pc + w) := by
  rw [advanceCheck, checked_faultUnless_cons]
  split
  · next hle => exact (s.nextIp_ok w _).2 ⟨hle, rfl⟩
  · next hgt => exact (s.nextIp_error w _).2 ⟨Nat.not_le.1 hgt, rfl⟩

/-! ## The datapath of the family (R106) -/

/-- The datapath makes the checks of `aluChecks` in their order, and then its commit. -/
theorem aluCommit_eq_checked (g : Word → Word → Word) (m1 m2 m3 : Mode) (s : State) :
    aluCommit g m1 m2 m3 s = checked (aluChecks s m1 m2 m3) { s with
      mem := s.mem.write (s.dst .p3 m3) (g (s.operand .p1 m1) (s.operand .p2 m2))
      pc := s.pc + 4 } := by
  rw [aluChecks, List.append_assoc, List.append_assoc]
  exact bind_checked (s.valueOf_eq_checked .p1 m1) <| bind_checked (s.valueOf_eq_checked .p2 m2) <|
    bind_checked (s.addressOf_eq_checked .p3 m3) <| bind_checked (s.checkWrite_eq_checked _) <|
    bind_checked (s.nextIp_eq_checked 4) rfl

theorem firstOf_aluChecks_eq_none : firstOf (aluChecks s m1 m2 m3) = none ↔
    ((s.Readable .p1 m1 ∧ s.Readable .p2 m2) ∧ s.Writable .p3 m3) ∧ s.HasRoom (s.dst .p3 m3) ∧ s.pc + 4 ≤ maxAddr := by
  rw [aluChecks, firstOf_append_eq_none, firstOf_append_eq_none, firstOf_append_eq_none, firstOf_readChecks_eq_none,
    firstOf_readChecks_eq_none, firstOf_writeChecks_eq_none, roomCheck, advanceCheck, firstOf_faultUnless_cons_eq_none,
    firstOf_faultUnless_cons_eq_none]
  exact and_congr_right fun _ => and_congr_right fun _ => and_iff_left rfl

theorem decode_wordOf {n : Nat} {operation : Mode → Mode → Mode → Instr} (ho : operationOf n = some operation)
    (m1 m2 m3 : Mode) : decode (wordOf n m1 m2 m3) = .ok (operation m1 m2 m3) := by
  rw [← encode_of_operationOf ho]
  exact decode_encode _

/-- R102 to R105 in one: any operation of the table that runs the datapath with a function `g`, and whose checks are those
of the family, decodes, faults and completes as these rules say. -/
theorem aluOperation_executes {n : Nat} {operation : Mode → Mode → Mode → Instr} {g : Word → Word → Word}
    (ho : operationOf n = some operation)
    (hexec : ∀ {s} m1 m2 m3, exec (operation m1 m2 m3) s = s.finish (aluCommit g m1 m2 m3 s))
    (hchecks : ∀ s m1 m2 m3, checksOf (operation m1 m2 m3) s = aluChecks s m1 m2 m3) (m1 m2 m3 : Mode) (s : State) :
    decode (wordOf n m1 m2 m3) = .ok (operation m1 m2 m3) ∧
    (∀ f, firstFault (operation m1 m2 m3) s = some f → exec (operation m1 m2 m3) s = .next (s.raise f)) ∧
    (s.Readable .p1 m1 → s.Readable .p2 m2 → s.Writable .p3 m3 → s.HasRoom (s.dst .p3 m3) → s.pc + 4 ≤ maxAddr →
      exec (operation m1 m2 m3) s = .next { s with
        mem := s.mem.write (s.dst .p3 m3) (g (s.operand .p1 m1) (s.operand .p2 m2))
        pc := s.pc + 4 }) := by
  refine ⟨decode_wordOf ho m1 m2 m3, fun f hf => ?_, fun h1 h2 h3 hroom hpc => ?_⟩
  · rw [firstFault, hchecks] at hf
    rw [hexec, aluCommit_eq_checked, checked_of_some _ hf]
    rfl
  · have hpass : firstOf (aluChecks s m1 m2 m3) = none := firstOf_aluChecks_eq_none.2 ⟨⟨⟨h1, h2⟩, h3⟩, hroom, hpc⟩
    rw [hexec, aluCommit_eq_checked, checked_of_none _ hpass]
    rfl

/-! ## The comparisons (R101) -/

theorem aluLess_eq (a b : Word) : aluLess a b = if a.toInt < b.toInt then 1 else 0 := by
  simp only [aluLess, truthWord, decide_eq_true_eq]

/-- Words are equal where their values are. -/
theorem aluEqual_eq (a b : Word) : aluEqual a b = if a.toInt = b.toInt then 1 else 0 := by
  simp only [aluEqual, truthWord, beq_iff_eq, BitVec.toInt_inj]

/-! ## The four instructions (R102 to R105) -/

/-- Settles O15: Add is the datapath with the wrapped sum. -/
theorem addExecutes : Obligations.AddExecutes :=
  aluOperation_executes rfl exec_add fun _ _ _ _ => rfl

/-- Settles O16: Multiply is the datapath with the wrapped product. -/
theorem multiplyExecutes : Obligations.MultiplyExecutes :=
  aluOperation_executes rfl exec_multiply fun _ _ _ _ => rfl

/-- Settles O17: LessThan is the datapath with the signed comparison, which is 0 or 1. -/
theorem lessThanExecutes : Obligations.LessThanExecutes := by
  unfold Obligations.LessThanExecutes
  simp only [← aluLess_eq]
  exact aluOperation_executes rfl exec_lessThan fun _ _ _ _ => rfl

/-- Settles O18: Equals is the datapath with the equality of Words, which is that of their values, 0 or 1. -/
theorem equalsExecutes : Obligations.EqualsExecutes := by
  unfold Obligations.EqualsExecutes
  simp only [← aluEqual_eq]
  exact aluOperation_executes rfl exec_equals fun _ _ _ _ => rfl

end Sys2Proof.Machine

/-! Proofs of the statements of spec/41_io.md: what Input (R120) and Output (R121) do. As in the ALU family, an
instruction answers what its list of checks says; Input has one list with an unread input, and a shorter one without. -/

namespace Sys2Proof.Machine

variable {s t : State} {i : Instr}

/-! ## An instruction that answers what its list of checks says (R81, R209) -/

theorem exec_of_firstFault_some {f : FaultInfo} (hexec : exec i s = s.finish (checked (checksOf i s) t))
    (hf : firstFault i s = some f) : exec i s = .next (s.raise f) := by
  rw [hexec, checked_of_some t hf]
  rfl

theorem exec_of_firstFault_none (hexec : exec i s = s.finish (checked (checksOf i s) t))
    (hpass : firstFault i s = none) : exec i s = .next t := by
  rw [hexec, checked_of_none t hpass]
  rfl

/-! ## Input (R120) -/

theorem checksOf_input_of_hasInput (h : s.HasInput) (m1 m2 m3 : Mode) :
    checksOf (.input m1 m2 m3) s = writeChecks s .p1 m1 ++ [roomCheck s (s.dst .p1 m1), advanceCheck s 2] :=
  congrArg (writeChecks s .p1 m1 ++ ·) (if_pos h)

/-- A blocked Input makes the checks of its write operand alone. -/
theorem checksOf_input_of_not_hasInput (h : ¬ s.HasInput) (m1 m2 m3 : Mode) :
    checksOf (.input m1 m2 m3) s = writeChecks s .p1 m1 ++ [] :=
  congrArg (writeChecks s .p1 m1 ++ ·) (if_neg h)

/-- With an unread input, Input makes all its checks, and then stores that input. -/
theorem exec_input_of_unread {v : Word} (hv : s.nextInput = some v) (m1 m2 m3 : Mode) :
    exec (.input m1 m2 m3) s = s.finish (checked (checksOf (.input m1 m2 m3) s) { s with
      mem := s.mem.write (s.dst .p1 m1) v
      inCur := s.inCur + 1
      pc := s.pc + 2 }) := by
  have hin : s.HasInput := (List.getElem?_eq_some_iff.1 hv).1
  rw [exec_input, inputCommit, hv, checksOf_input_of_hasInput hin]
  exact congrArg s.finish <| bind_checked (s.addressOf_eq_checked .p1 m1) <|
    bind_checked (s.checkWrite_eq_checked _) <| bind_checked (s.nextIp_eq_checked 2) rfl

/-- With no unread input, Input checks its write operand, and then blocks. -/
theorem exec_input_of_no_unread (hnone : s.nextInput = none) (m1 m2 m3 : Mode) :
    exec (.input m1 m2 m3) s =
      s.finish (checked (checksOf (.input m1 m2 m3) s) { s with rs := .waitingForInput }) := by
  rw [exec_input, inputCommit, hnone, checksOf_input_of_not_hasInput (s.nextInput_eq_none.1 hnone)]
  exact congrArg s.finish <| bind_checked (s.addressOf_eq_checked .p1 m1) rfl

theorem firstFault_input_eq_none_of_hasInput (h : s.HasInput) (m1 m2 m3 : Mode) :
    firstFault (.input m1 m2 m3) s = none ↔
      s.Writable .p1 m1 ∧ s.HasRoom (s.dst .p1 m1) ∧ s.pc + 2 ≤ maxAddr := by
  rw [firstFault, checksOf_input_of_hasInput h, firstOf_append_eq_none, firstOf_writeChecks_eq_none, roomCheck,
    advanceCheck, firstOf_faultUnless_cons_eq_none, firstOf_faultUnless_cons_eq_none]
  exact and_congr_right fun _ => and_congr_right fun _ => and_iff_left rfl

theorem firstFault_input_eq_none_of_not_hasInput (h : ¬ s.HasInput) (m1 m2 m3 : Mode) :
    firstFault (.input m1 m2 m3) s = none ↔ s.Writable .p1 m1 := by
  rw [firstFault, checksOf_input_of_not_hasInput h, List.append_nil, firstOf_writeChecks_eq_none]

/-- Settles O19: the queue test chooses between two lists of checks, and both begin with those of the write operand. -/
theorem inputExecutes : Obligations.InputExecutes := by
  intro m1 m2 m3 s
  refine ⟨decode_wordOf rfl m1 m2 m3, fun f hf => ?_, fun v hv hwrite hroom hpc => ?_, fun hcur hwrite => ?_⟩
  · cases hnext : s.nextInput with
    | none => exact exec_of_firstFault_some (exec_input_of_no_unread hnext m1 m2 m3) hf
    | some v => exact exec_of_firstFault_some (exec_input_of_unread hnext m1 m2 m3) hf
  · have hin : s.HasInput := (List.getElem?_eq_some_iff.1 hv).1
    exact exec_of_firstFault_none (exec_input_of_unread hv m1 m2 m3)
      ((firstFault_input_eq_none_of_hasInput hin m1 m2 m3).2 ⟨hwrite, hroom, hpc⟩)
  · have hin : ¬ s.HasInput := Nat.not_lt.2 hcur.ge
    exact exec_of_firstFault_none (exec_input_of_no_unread (s.nextInput_eq_none.2 hin) m1 m2 m3)
      ((firstFault_input_eq_none_of_not_hasInput hin m1 m2 m3).2 hwrite)

/-! ## Output (R121) -/

theorem State.checkOutput_eq_checked (s : State) :
    s.checkOutput = checked [faultUnless (decide (s.config.outCapacity ≠ some s.outQ.length))
      (.capacityExceeded (some s.pc) .outputQueue)] () := by
  rw [checked_faultUnless_cons]
  split
  · next hroom => exact s.checkOutput_ok.2 hroom
  · next hfull => exact (s.checkOutput_error _).2 ⟨not_not.1 hfull, rfl⟩

/-- Output makes its checks in their order, and then appends its operand. -/
theorem exec_output_eq_checked (s : State) (m1 m2 m3 : Mode) :
    exec (.output m1 m2 m3) s = s.finish (checked (checksOf (.output m1 m2 m3) s) { s with
      outQ := s.outQ ++ [s.operand .p1 m1]
      pc := s.pc + 2 }) := by
  rw [exec_output, outputCommit, checksOf]
  exact congrArg s.finish <| bind_checked (s.valueOf_eq_checked .p1 m1) <| bind_checked s.checkOutput_eq_checked <|
    bind_checked (s.nextIp_eq_checked 2) rfl

theorem firstFault_output_eq_none (s : State) (m1 m2 m3 : Mode) :
    firstFault (.output m1 m2 m3) s = none ↔
      s.Readable .p1 m1 ∧ s.config.outCapacity ≠ some s.outQ.length ∧ s.pc + 2 ≤ maxAddr := by
  rw [firstFault, checksOf, firstOf_append_eq_none, firstOf_readChecks_eq_none, advanceCheck,
    firstOf_faultUnless_cons_eq_none, firstOf_faultUnless_cons_eq_none]
  exact and_congr_right fun _ => and_congr_right fun _ => and_iff_left rfl

/-- Settles O20: Output is one list of checks and one commit, for every mode. -/
theorem outputExecutes : Obligations.OutputExecutes := by
  intro m1 m2 m3 s
  have hexec := exec_output_eq_checked s m1 m2 m3
  refine ⟨decode_wordOf rfl m1 m2 m3, fun f hf => exec_of_firstFault_some hexec hf, fun hread hroom hpc => ?_⟩
  exact exec_of_firstFault_none hexec ((firstFault_output_eq_none s m1 m2 m3).2 ⟨hread, hroom, hpc⟩)

end Sys2Proof.Machine

/-! Proofs of the statements of spec/42_jumps.md: what JumpIfTrue (R140) and JumpIfFalse (R141) do. Both are one datapath
with a condition on the first operand; the condition decides the last check and the next pc, and nothing else. -/

namespace Sys2Proof.Machine

variable {s : State} {m1 m2 : Mode}

/-! ## The datapath of the jumps -/

/-- The pc after a conditional jump: the target where it is taken, else the address past the instruction. -/
def State.jumpPc (s : State) (m2 : Mode) (taken : Bool) : Nat :=
  if taken then (s.operand .p2 m2).toInt.toNat else s.pc + 3

theorem State.jumpTarget_eq_checked (s : State) (w : Word) :
    s.jumpTarget w =
      checked [faultUnless (decide (0 ≤ w.toInt)) (.invalidAddress s.pc (some .p2) w.toInt .jump)] w.toInt.toNat := by
  rw [checked_faultUnless_cons]
  split
  · next hnonneg => exact if_neg (Int.not_lt.2 hnonneg)
  · next hneg => exact if_pos (Int.not_le.1 hneg)

theorem State.jumpOrAdvance_eq_checked (s : State) (m2 : Mode) (taken : Bool) :
    s.jumpOrAdvance taken (s.operand .p2 m2) = checked [jumpCheck s m2 taken] (s.jumpPc m2 taken) := by
  cases taken with
  | true => exact s.jumpTarget_eq_checked _
  | false => exact s.nextIp_eq_checked 3

/-- The datapath resolves both operands, then makes the check of the way it goes, and then goes there. -/
theorem jumpCommit_eq_checked (taken : Word → Bool) (m1 m2 : Mode) (s : State) :
    jumpCommit taken m1 m2 s =
      checked (readChecks s .p1 m1 ++ readChecks s .p2 m2 ++ [jumpCheck s m2 (taken (s.operand .p1 m1))])
        { s with pc := s.jumpPc m2 (taken (s.operand .p1 m1)) } := by
  rw [List.append_assoc]
  exact bind_checked (s.valueOf_eq_checked .p1 m1) <| bind_checked (s.valueOf_eq_checked .p2 m2) <|
    bind_checked (s.jumpOrAdvance_eq_checked m2 _) rfl

theorem firstOf_jumpChecks_eq_none {taken : Bool} :
    firstOf (readChecks s .p1 m1 ++ readChecks s .p2 m2 ++ [jumpCheck s m2 taken]) = none ↔
      (s.Readable .p1 m1 ∧ s.Readable .p2 m2) ∧
        if taken then 0 ≤ (s.operand .p2 m2).toInt else s.pc + 3 ≤ maxAddr := by
  rw [firstOf_append_eq_none, firstOf_append_eq_none, firstOf_readChecks_eq_none, firstOf_readChecks_eq_none]
  refine and_congr_right fun _ => ?_
  cases taken with
  | true => exact firstOf_faultUnless_cons_eq_none.trans (and_iff_left rfl)
  | false => exact firstOf_faultUnless_cons_eq_none.trans (and_iff_left rfl)

/-- R140 and R141 in one: any operation of the table that runs the datapath with a condition `P`, and whose checks are
those of a jump with this condition, decodes, faults, jumps and advances as these rules say. -/
theorem jumpOperation_executes {n : Nat} {operation : Mode → Mode → Mode → Instr} {P : Word → Prop} [DecidablePred P]
    (ho : operationOf n = some operation)
    (hexec : ∀ s m1 m2 m3, exec (operation m1 m2 m3) s = s.finish (jumpCommit (fun c => decide (P c)) m1 m2 s))
    (hchecks : ∀ s m1 m2 m3, checksOf (operation m1 m2 m3) s =
      readChecks s .p1 m1 ++ readChecks s .p2 m2 ++ [jumpCheck s m2 (decide (P (s.operand .p1 m1)))])
    (m1 m2 m3 : Mode) (s : State) :
    decode (wordOf n m1 m2 m3) = .ok (operation m1 m2 m3) ∧
    (∀ f, firstFault (operation m1 m2 m3) s = some f → exec (operation m1 m2 m3) s = .next (s.raise f)) ∧
    (s.Readable .p1 m1 → s.Readable .p2 m2 → P (s.operand .p1 m1) → 0 ≤ (s.operand .p2 m2).toInt →
      exec (operation m1 m2 m3) s = .next { s with pc := (s.operand .p2 m2).toInt.toNat }) ∧
    (s.Readable .p1 m1 → s.Readable .p2 m2 → ¬ P (s.operand .p1 m1) → s.pc + 3 ≤ maxAddr →
      exec (operation m1 m2 m3) s = .next { s with pc := s.pc + 3 }) := by
  have hrun : exec (operation m1 m2 m3) s = s.finish (checked (checksOf (operation m1 m2 m3) s)
      { s with pc := s.jumpPc m2 (decide (P (s.operand .p1 m1))) }) := by
    rw [hexec, jumpCommit_eq_checked, hchecks]
  have hpass : firstFault (operation m1 m2 m3) s = none ↔ (s.Readable .p1 m1 ∧ s.Readable .p2 m2) ∧
      if decide (P (s.operand .p1 m1)) then 0 ≤ (s.operand .p2 m2).toInt else s.pc + 3 ≤ maxAddr := by
    rw [firstFault, hchecks, firstOf_jumpChecks_eq_none]
  refine ⟨decode_wordOf ho m1 m2 m3, fun f hf => exec_of_firstFault_some hrun hf, fun h1 h2 hP ht => ?_,
    fun h1 h2 hP hpc => ?_⟩
  · rw [decide_eq_true hP] at hrun hpass
    exact exec_of_firstFault_none hrun (hpass.2 ⟨⟨h1, h2⟩, ht⟩)
  · rw [decide_eq_false hP] at hrun hpass
    exact exec_of_firstFault_none hrun (hpass.2 ⟨⟨h1, h2⟩, hpc⟩)

/-! ## The conditions, and the two jumps (R140, R141) -/

theorem conditionHolds_eq_decide (c : Word) : conditionHolds c = decide (c ≠ 0) := by
  rw [decide_not]
  rfl

theorem not_conditionHolds_eq_decide (c : Word) : (!conditionHolds c) = decide (c = 0) := by
  rw [conditionHolds_eq_decide, decide_not, Bool.not_not]

theorem exec_jumpIfTrue_eq_decide (s : State) (m1 m2 m3 : Mode) :
    exec (.jumpIfTrue m1 m2 m3) s = s.finish (jumpCommit (fun c => decide (c ≠ 0)) m1 m2 s) := by
  rw [exec_jumpIfTrue, funext conditionHolds_eq_decide]

theorem exec_jumpIfFalse_eq_decide (s : State) (m1 m2 m3 : Mode) :
    exec (.jumpIfFalse m1 m2 m3) s = s.finish (jumpCommit (fun c => decide (c = 0)) m1 m2 s) := by
  rw [exec_jumpIfFalse, funext not_conditionHolds_eq_decide]

/-- Settles O21: JumpIfTrue is the datapath with the condition that the first operand is not 0. -/
theorem jumpIfTrueExecutes : Obligations.JumpIfTrueExecutes := by
  intro m1 m2 m3 s
  obtain ⟨hdecode, hfault, htaken, hadvance⟩ := jumpOperation_executes (n := 5) (P := (· ≠ 0)) rfl
    exec_jumpIfTrue_eq_decide (fun _ _ _ _ => rfl) m1 m2 m3 s
  exact ⟨hdecode, hfault, htaken, fun h1 h2 hzero => hadvance h1 h2 (not_not.2 hzero)⟩

/-- Settles O22: JumpIfFalse is the datapath with the condition that the first operand is 0. -/
theorem jumpIfFalseExecutes : Obligations.JumpIfFalseExecutes :=
  jumpOperation_executes (P := (· = 0)) rfl exec_jumpIfFalse_eq_decide fun _ _ _ _ => rfl

end Sys2Proof.Machine

/-! Proofs of the statements of spec/43_relbase_halt.md: what RelativeBaseOffset (R160) and Halt (R161) do. The first is one
list of checks and one commit, and its overflow check is what makes the wrapped sum the exact one; the second checks
nothing. -/

namespace Sys2Proof.Machine

variable {s : State}

/-! ## RelativeBaseOffset (R160) -/

/-- A Word with the value `x` is the only one that `x` can wrap to. -/
theorem wrap64_eq_of_toInt_eq {x : Int} {w : Word} (hw : w.toInt = x) : wrap64 x = w := by
  rw [← hw]
  exact BitVec.ofInt_toInt

theorem State.offsetRb_eq_checked (s : State) (k : Word) :
    s.offsetRb k = checked [faultUnless (decide (-2 ^ 63 ≤ s.rb.toInt + k.toInt ∧ s.rb.toInt + k.toInt ≤ 2 ^ 63 - 1))
      (.relativeBaseOverflow s.pc s.rb k)] (wrap64 (s.rb.toInt + k.toInt)) := by
  rw [checked_faultUnless_cons]
  split
  · next hword => exact if_pos ((inWord_iff _).2 hword)
  · next hover => exact if_neg (mt (inWord_iff _).1 hover)

/-- RelativeBaseOffset makes its checks in their order, and then writes the sum to RB. -/
theorem exec_relativeBaseOffset_eq_checked (s : State) (m1 m2 m3 : Mode) :
    exec (.relativeBaseOffset m1 m2 m3) s = s.finish (checked (checksOf (.relativeBaseOffset m1 m2 m3) s) { s with
      rb := wrap64 (s.rb.toInt + (s.operand .p1 m1).toInt)
      pc := s.pc + 2 }) := by
  rw [exec_relativeBaseOffset, relativeBaseCommit, checksOf]
  exact congrArg s.finish <| bind_checked (s.valueOf_eq_checked .p1 m1) <| bind_checked (s.offsetRb_eq_checked _) <|
    bind_checked (s.nextIp_eq_checked 2) rfl

theorem firstFault_relativeBaseOffset_eq_none (s : State) (m1 m2 m3 : Mode) :
    firstFault (.relativeBaseOffset m1 m2 m3) s = none ↔
      s.Readable .p1 m1 ∧ (-2 ^ 63 ≤ s.rb.toInt + (s.operand .p1 m1).toInt ∧
        s.rb.toInt + (s.operand .p1 m1).toInt ≤ 2 ^ 63 - 1) ∧ s.pc + 2 ≤ maxAddr := by
  rw [firstFault, checksOf, firstOf_append_eq_none, firstOf_readChecks_eq_none, advanceCheck,
    firstOf_faultUnless_cons_eq_none, firstOf_faultUnless_cons_eq_none]
  exact and_congr_right fun _ => and_congr_right fun _ => and_iff_left rfl

/-- Settles O23: a sum that is the value of a Word passes the overflow check, and wraps to that Word. -/
theorem relativeBaseOffsetExecutes : Obligations.RelativeBaseOffsetExecutes := by
  intro m1 m2 m3 s
  have hexec := exec_relativeBaseOffset_eq_checked s m1 m2 m3
  refine ⟨decode_wordOf rfl m1 m2 m3, fun f hf => exec_of_firstFault_some hexec hf, fun nb hread hsum hpc => ?_⟩
  have hword : -2 ^ 63 ≤ s.rb.toInt + (s.operand .p1 m1).toInt ∧
      s.rb.toInt + (s.operand .p1 m1).toInt ≤ 2 ^ 63 - 1 := (exists_word_toInt_iff _).1 ⟨nb, hsum⟩
  rw [wrap64_eq_of_toInt_eq hsum] at hexec
  exact exec_of_firstFault_none hexec ((firstFault_relativeBaseOffset_eq_none s m1 m2 m3).2 ⟨hread, hword, hpc⟩)

/-! ## Halt (R161) -/

/-- After Halt the loop test of Run fails, whatever BUSY and FAULT hold (60_exceptions.md R223). -/
theorem State.not_loopTest_of_halted (hhalt : s.rs = .halted) :
    ¬ (s.busy = true ∧ s.rs = .running ∧ s.fault = none) := by
  rintro ⟨-, hrun, -⟩
  simp [hhalt] at hrun

/-- Settles O24: Halt checks nothing, and the loop test after it fails. That this test belongs to the step of the Halt is
the model's choice (notes/assumptions/3.md). -/
theorem haltExecutes : Obligations.HaltExecutes := by
  intro m1 m2 m3 s
  have hexec : exec (.halt m1 m2 m3) s = .next { s with rs := .halted } := exec_halt m1 m2 m3
  refine ⟨decode_wordOf rfl m1 m2 m3, hexec, fun hstep hdec => ?_⟩
  rw [stepRunsDecodedInstruction s _ _ hstep hdec hexec, decide_eq_false (State.not_loopTest_of_halted rfl)]

end Sys2Proof.Machine

/-! Proofs of the statements of spec/60_exceptions.md: the faults and their order (R200 to R212), the run-state
transitions (R215, R216), the host commands (R218 to R229) and the loop of Run (R223, R230, R231). An instruction answers
what its list of checks says, and where they all pass its next state is `commitOf`; an enabled step is then one fault or
one commit. -/

namespace Sys2Proof.Machine

variable {s t : State} {i : Instr} {c : Command} {a : Answer}

/-! ## An instruction is its checks and its commit (30_encoding.md R81; R209) -/

/-- The commit of Input: it blocks with no unread input, else stores the oldest one (41_io.md R120). -/
def inputCommitOf (m1 : Mode) (s : State) : State :=
  match s.nextInput with
  | none => { s with rs := .waitingForInput }
  | some v => { s with mem := s.mem.write (s.dst .p1 m1) v, inCur := s.inCur + 1, pc := s.pc + 2 }

/-- The commit of the ALU family (40_alu.md R106). -/
def aluCommitOf (g : Word → Word → Word) (m1 m2 m3 : Mode) (s : State) : State :=
  { s with mem := s.mem.write (s.dst .p3 m3) (g (s.operand .p1 m1) (s.operand .p2 m2)), pc := s.pc + 4 }

/-- The state an instruction leaves where all its checks pass. -/
def commitOf (i : Instr) (s : State) : State :=
  match i with
  | .add m1 m2 m3 => aluCommitOf aluSum m1 m2 m3 s
  | .multiply m1 m2 m3 => aluCommitOf aluProduct m1 m2 m3 s
  | .lessThan m1 m2 m3 => aluCommitOf aluLess m1 m2 m3 s
  | .equals m1 m2 m3 => aluCommitOf aluEqual m1 m2 m3 s
  | .input m1 _ _ => inputCommitOf m1 s
  | .output m1 _ _ => { s with outQ := s.outQ ++ [s.operand .p1 m1], pc := s.pc + 2 }
  | .jumpIfTrue m1 m2 _ => { s with pc := s.jumpPc m2 (decide (s.operand .p1 m1 ≠ 0)) }
  | .jumpIfFalse m1 m2 _ => { s with pc := s.jumpPc m2 (decide (s.operand .p1 m1 = 0)) }
  | .relativeBaseOffset m1 _ _ => { s with rb := wrap64 (s.rb.toInt + (s.operand .p1 m1).toInt), pc := s.pc + 2 }
  | .halt _ _ _ => { s with rs := .halted }

theorem commitOf_input_of_no_unread (hnone : s.nextInput = none) (m1 m2 m3 : Mode) :
    commitOf (.input m1 m2 m3) s = { s with rs := .waitingForInput } := by
  rw [commitOf, inputCommitOf, hnone]

theorem commitOf_input_of_unread {v : Word} (hv : s.nextInput = some v) (m1 m2 m3 : Mode) :
    commitOf (.input m1 m2 m3) s =
      { s with mem := s.mem.write (s.dst .p1 m1) v, inCur := s.inCur + 1, pc := s.pc + 2 } := by
  rw [commitOf, inputCommitOf, hv]

theorem State.HasInput.exists_nextInput (h : s.HasInput) : ∃ v, s.nextInput = some v :=
  ⟨_, List.getElem?_eq_getElem h⟩

/-- Every instruction makes its list of checks in order, and then its commit. -/
theorem exec_eq_checked (i : Instr) (s : State) : exec i s = s.finish (checked (checksOf i s) (commitOf i s)) := by
  cases i with
  | add m1 m2 m3 | multiply m1 m2 m3 | lessThan m1 m2 m3 | equals m1 m2 m3 =>
    simp only [exec_add, exec_multiply, exec_lessThan, exec_equals]
    rw [aluCommit_eq_checked]
    rfl
  | input m1 m2 m3 =>
    cases hnext : s.nextInput with
    | none =>
      rw [commitOf_input_of_no_unread hnext]
      exact exec_input_of_no_unread hnext m1 m2 m3
    | some v =>
      rw [commitOf_input_of_unread hnext]
      exact exec_input_of_unread hnext m1 m2 m3
  | output m1 m2 m3 => exact exec_output_eq_checked s m1 m2 m3
  | jumpIfTrue m1 m2 m3 =>
    rw [exec_jumpIfTrue_eq_decide]
    exact congrArg s.finish (jumpCommit_eq_checked _ m1 m2 s)
  | jumpIfFalse m1 m2 m3 =>
    rw [exec_jumpIfFalse_eq_decide]
    exact congrArg s.finish (jumpCommit_eq_checked _ m1 m2 s)
  | relativeBaseOffset m1 m2 m3 => exact exec_relativeBaseOffset_eq_checked s m1 m2 m3
  | halt m1 m2 m3 => exact exec_halt m1 m2 m3

theorem exec_of_fault {f : FaultInfo} (hf : firstFault i s = some f) : exec i s = .next (s.raise f) :=
  exec_of_firstFault_some (exec_eq_checked i s) hf

theorem exec_of_no_fault (hpass : firstFault i s = none) : exec i s = .next (commitOf i s) :=
  exec_of_firstFault_none (exec_eq_checked i s) hpass

/-- No commit writes FAULT or BUSY. -/
theorem commitOf_fault_busy (i : Instr) (s : State) :
    (commitOf i s).fault = s.fault ∧ (commitOf i s).busy = s.busy := by
  cases i with
  | input =>
    cases hnext : s.nextInput with
    | none =>
      rw [commitOf_input_of_no_unread hnext]
      exact ⟨rfl, rfl⟩
    | some v =>
      rw [commitOf_input_of_unread hnext]
      exact ⟨rfl, rfl⟩
  | add | multiply | lessThan | equals | output | jumpIfTrue | jumpIfFalse | relativeBaseOffset | halt =>
    exact ⟨rfl, rfl⟩

/-- Settles O25: an instruction is the entry of its first fault, or a commit, which writes neither register. -/
theorem instructionKeepsFaultAndBusy : Obligations.InstructionKeepsFaultAndBusy := by
  intro i s t h
  constructor
  · intro hpass
    rw [exec_of_no_fault hpass] at h
    cases h
    exact commitOf_fault_busy i s
  · intro f hf
    rw [exec_of_fault hf] at h
    cases h
    exact ⟨rfl, rfl⟩

/-! ## The step: where nothing is enabled, and where it is one fault or one commit (30_encoding.md R80) -/

theorem State.CanStep.enabled : s.CanStep → s.enabled = true
  | ⟨hbusy, hrs, hfault, _⟩ => s.enabled_iff.2 ⟨hbusy, hrs, hfault⟩

/-- A step that is not enabled writes BUSY at most. -/
theorem step_frame_of_not_enabled (he : s.enabled = false) (h : step s = .next t) : t = { s with busy := t.busy } := by
  rw [step_of_not_enabled he, s.endRunUnlessEnabled_eq] at h
  cases h
  rfl

/-- A step that is not enabled, or has no address to fetch from, writes BUSY at most. -/
theorem step_frame_of_not_canStep (hn : ¬ s.CanStep) (h : step s = .next t) : t = { s with busy := t.busy } := by
  obtain ⟨he, -⟩ | ⟨he, hpc, -⟩ := step_cases h
  · exact step_frame_of_not_enabled he h
  · obtain ⟨hbusy, hrs, hfault⟩ := s.enabled_iff.1 he
    exact absurd ⟨hbusy, hrs, hfault, hpc⟩ hn

theorem State.setBusy_self {b : Bool} (h : s.busy = b) : s.setBusy b = s := by
  subst h
  rfl

theorem step_of_not_busy (hidle : s.busy = false) : step s = .next s := by
  have he : s.enabled = false := by simp [State.enabled, hidle]
  rw [step_of_not_enabled he, s.endRunUnlessEnabled_eq, he, State.setBusy_self hidle]

/-- Settles O9: no instruction is enabled, and BUSY is 0 already. That such a step answers the same state is the model's
choice (notes/assumptions/3.md). -/
theorem stepWithoutRunStays : Obligations.StepWithoutRunStays := fun _ => step_of_not_busy

/-- Fault entry where FAULT holds none (R210). -/
theorem State.raise_of_no_fault (hnone : s.fault = none) (f : FaultInfo) :
    s.raise f = { s with fault := some f, busy := false } := by
  rw [State.raise, hnone]
  rfl

/-- Fault entry outside a Run: there is none to end. -/
theorem State.raise_of_not_busy (hidle : s.busy = false) (f : FaultInfo) :
    s.raise f = { s with fault := some (s.fault.getD f) } := by
  rw [State.raise, ← hidle]

theorem State.CanStep.step_of_decode_error {e : DecodeError} (h : s.CanStep) (hdec : decode s.fetch = .error e) :
    step s = .next { s with fault := some (decodeFault s.pc s.fetch e), busy := false } := by
  have ⟨_, _, hnone, hpc⟩ := h
  rw [Machine.step_of_decode_error h.enabled hpc hdec, State.raise_of_no_fault hnone]

theorem State.CanStep.step_of_fault {f : FaultInfo} (h : s.CanStep) (hdec : decode s.fetch = .ok i)
    (hf : firstFault i s = some f) : step s = .next { s with fault := some f, busy := false } := by
  have ⟨_, _, hnone, hpc⟩ := h
  rw [step_of_decode_ok h.enabled hpc hdec, exec_of_fault hf, State.raise_of_no_fault hnone]
  rfl

/-- An enabled step without a fault is the commit of its instruction, and the loop test of Run (R223). -/
theorem State.CanStep.step_of_no_fault (h : s.CanStep) (hdec : decode s.fetch = .ok i)
    (hpass : firstFault i s = none) : step s = .next ((commitOf i s).setBusy (commitOf i s).enabled) := by
  have ⟨_, _, _, hpc⟩ := h
  rw [step_of_decode_ok h.enabled hpc hdec, exec_of_no_fault hpass, ← State.endRunUnlessEnabled_eq]
  rfl

/-- Everything an enabled step can do: enter one fault, or commit one instruction. -/
theorem State.CanStep.step_fault_or_commit (h : s.CanStep) (hstep : step s = .next t) :
    (∃ f, t = { s with fault := some f, busy := false }) ∨
      ∃ i, decode s.fetch = .ok i ∧ firstFault i s = none ∧ t = (commitOf i s).setBusy (commitOf i s).enabled := by
  cases hdec : decode s.fetch with
  | error e =>
    rw [h.step_of_decode_error hdec] at hstep
    cases hstep
    exact .inl ⟨_, rfl⟩
  | ok i =>
    cases hfirst : firstFault i s with
    | some f =>
      rw [h.step_of_fault hdec hfirst] at hstep
      cases hstep
      exact .inl ⟨f, rfl⟩
    | none =>
      rw [h.step_of_no_fault hdec hfirst] at hstep
      cases hstep
      exact .inr ⟨i, rfl, hfirst, rfl⟩

/-! ## The faults of a step (R200, R202, R203, R209, R210) -/

/-- Settles O10, by the three ways an enabled step goes: decoding fails, a check fails, or the instruction commits. -/
theorem stepReportsFirstFault : Obligations.StepReportsFirstFault := by
  intro s h
  cases hdec : decode (s.mem.read s.pc) with
  | error e =>
    refine ⟨_, h.step_of_decode_error hdec, ?_⟩
    cases e with
    | unknownOpcode => rfl
    | unknownMode k => rfl
  | ok i =>
    cases hfirst : firstFault i s with
    | some f => exact ⟨_, h.step_of_fault hdec hfirst, hfirst.symm⟩
    | none =>
      have ⟨_, _, hnone, _⟩ := h
      obtain ⟨hfault, -⟩ := commitOf_fault_busy i s
      exact ⟨_, h.step_of_no_fault hdec hfirst, (hfault.trans hnone).trans hfirst.symm⟩

theorem lookupEntry_eq_none {b : Nat} {l : List (Nat × Word)} (h : b ∉ l.map Prod.fst) : lookupEntry b l = none := by
  induction l with
  | nil => rfl
  | cons e rest ih =>
    obtain ⟨hne, hrest⟩ := not_or.1 (mt List.mem_cons.2 h)
    exact (if_neg hne).trans (ih hrest)

/-- Never-written memory above PRIM reads 0 (20_memory.md R43). -/
theorem Memory.read_of_not_mem_keys {m : Memory} {b : Nat} (hsize : m.size ≤ b) (hkeys : b ∉ m.keys) :
    m.read b = 0 := by
  rw [Memory.read, if_neg (Nat.not_lt.2 hsize), lookupEntry_eq_none hkeys]
  rfl

/-- Settles O6: decoding fails before any operand is looked at, and word 0 has the opcode 0. -/
theorem unknownOpcodeFaults : Obligations.UnknownOpcodeFaults := by
  intro s h
  have hbad : s.fetch.toInt < 0 ∨ s.fetch.toNat % 100 ∉ [1, 2, 3, 4, 5, 6, 7, 8, 9, 99] →
      step s = .next { s with fault := some (.unknownOpcode s.pc s.fetch), busy := false } := by
    rintro (hneg | hop)
    · exact h.step_of_decode_error (decode_of_neg hneg)
    · exact h.step_of_decode_error (decode_of_operationOf_none (operationOf_eq_none.2 hop))
  refine ⟨hbad, fun hsize hkeys => ?_⟩
  have hzero : s.fetch = 0 := Memory.read_of_not_mem_keys hsize hkeys
  rw [hzero] at hbad
  exact hbad (.inr (by decide))

/-- The lowest mode digit above 2 is the one the decoder names (30_encoding.md R66, R67). -/
theorem decode_eq_unknownMode {w : Word} {k : Param} (hw : 0 ≤ w.toInt)
    (hop : w.toNat % 100 ∈ [1, 2, 3, 4, 5, 6, 7, 8, 9, 99]) (hbad : 2 < digit (k.index + 1) w.toNat)
    (hlow : ∀ j : Param, j.index < k.index → digit (j.index + 1) w.toNat ≤ 2) :
    decode w = .error (.unknownMode k) := by
  obtain ⟨operation, ho⟩ := Option.ne_none_iff_exists'.1 (mt operationOf_eq_none.1 (not_not.2 hop))
  have hok (j : Param) (hj : j.index < k.index) : ∃ m, modeOf j w.toNat = .ok m :=
    exists_modeOf_eq_ok (Nat.not_lt.2 (hlow j hj))
  rw [decode_of_operationOf_some hw ho]
  cases k with
  | p1 =>
    rw [modeOf_eq_error hbad]
    rfl
  | p2 =>
    obtain ⟨m1, h1⟩ := hok .p1 (by decide)
    rw [h1, modeOf_eq_error hbad]
    rfl
  | p3 =>
    obtain ⟨m1, h1⟩ := hok .p1 (by decide)
    obtain ⟨m2, h2⟩ := hok .p2 (by decide)
    rw [h1, h2, modeOf_eq_error hbad]
    rfl

/-- Settles O7: decoding fails at that parameter, whatever the opcode does with it. -/
theorem unknownModeFaults : Obligations.UnknownModeFaults :=
  fun _ _ h hw hop hbad hlow => h.step_of_decode_error (decode_eq_unknownMode hw hop hbad hlow)

/-- A command that is done, other than Construct, was issued with no fault recorded (R212). -/
theorem command_fault_eq_none (hc : ∀ words, c ≠ .construct words) (h : command c s = .done a t) : s.fault = none := by
  obtain ⟨-, ⟨words, hwords, -⟩ | ⟨hfault, -⟩⟩ := command_cases h
  · exact absurd hwords (hc words)
  · exact hfault

/-- A step that faults writes FAULT and BUSY alone. -/
theorem State.CanStep.step_frame_of_fault (h : s.CanStep) (hstep : step s = .next t) (hfault : t.fault ≠ none) :
    t = { s with fault := t.fault, busy := false } := by
  obtain ⟨f, rfl⟩ | ⟨i, -, -, rfl⟩ := h.step_fault_or_commit hstep
  · rfl
  · obtain ⟨-, -, hnone, -⟩ := h
    exact absurd ((commitOf_fault_busy i s).1.trans hnone) hfault

/-- A command that raises writes FAULT alone: BUSY was 0 when it was issued. -/
theorem command_frame_of_fault (h : command c s = .done a t) (hfault : t.fault ≠ none) :
    t = { s with fault := t.fault } := by
  have hidle : s.busy = false := (command_cases h).1
  cases command_effect h with
  | constructed => exact absurd rfl hfault
  | faulted _ _ f => exact State.raise_of_not_busy hidle f
  | inputPushed v => exact absurd (command_fault_eq_none (by nofun) h) hfault
  | runStarted _ _ hnone => exact absurd hnone hfault
  | outputRead => exact absurd (command_fault_eq_none (by nofun) h) hfault
  | unchanged => rfl

/-- Settles O11. After the fault BUSY is 0, so no step is enabled; that such a step answers the same state is the
model's choice (notes/assumptions/3.md). -/
theorem faultEntryWritesOnlyFault : Obligations.FaultEntryWritesOnlyFault := by
  refine ⟨fun s t h hstep hfault => ?_, fun _ _ _ _ h hfault => command_frame_of_fault h hfault,
    fun s f hnone => State.raise_of_no_fault hnone f, fun s f g hg => ?_⟩
  · have hframe := h.step_frame_of_fault hstep hfault
    have hidle : t.busy = false := congrArg State.busy hframe
    exact ⟨hframe, step_of_not_busy hidle⟩
  · rw [State.raise_fault, hg, Option.getD_some]

/-! ## The loop of Run (R223, R230, R231) -/

theorem runLoop_of_not_busy (n : Nat) (hidle : s.busy = false) : runLoop n s = .ended s := by
  cases n with
  | zero => rw [runLoop, hidle, if_neg Bool.false_ne_true]
  | succ n => rw [runLoop, hidle, if_neg Bool.false_ne_true]

theorem runLoop_succ_of_step (n : Nat) (hbusy : s.busy = true) (h : step s = .next t) :
    runLoop (n + 1) s = runLoop n t := by
  rw [runLoop, if_pos hbusy, h]

/-- The invariant enables a step while a Run is in progress (10_state.md R34). -/
theorem State.Inv.canStep (hs : s.Inv) (hbusy : s.busy = true) : s.CanStep := by
  obtain ⟨⟨hpc, -, -, -, -, hrun⟩, -⟩ := hs
  obtain ⟨hrs, hfault⟩ := hrun hbusy
  exact ⟨hbusy, hrs, hfault, hpc⟩

/-- An enabled step clears BUSY only where it ends in a fault, or leaves Running. -/
theorem State.CanStep.stopped_of_not_busy (h : s.CanStep) (hstep : step s = .next t) (hidle : t.busy = false) :
    t.rs = .halted ∨ t.rs = .waitingForInput ∨ t.fault ≠ none := by
  obtain ⟨f, rfl⟩ | ⟨i, -, -, rfl⟩ := h.step_fault_or_commit hstep
  · exact .inr (.inr nofun)
  · obtain ⟨hbusy, -, hnone, -⟩ := h
    obtain ⟨hfault, hkeeps⟩ := commitOf_fault_busy i s
    have hnotRunning : (commitOf i s).rs ≠ .running := fun hrs => by
      have hstill : (commitOf i s).enabled = true :=
        (State.enabled_iff _).2 ⟨hkeeps.trans hbusy, hrs, hfault.trans hnone⟩
      rw [State.setBusy_busy, hstill] at hidle
      cases hidle
    rw [State.setBusy_rs]
    cases hrs : (commitOf i s).rs with
    | running => exact absurd hrs hnotRunning
    | waitingForInput => exact .inr (.inl rfl)
    | halted => exact .inl rfl

/-- Settles O48, by induction on the fuel: a step keeps the invariant, and either the Run is still in progress, or the
step stopped it and no later fuel runs anything. -/
theorem runEndsExactlyWhenStopped : Obligations.RunEndsExactlyWhenStopped := by
  intro s n
  induction n generalizing s with
  | zero =>
    intro hs hbusy
    obtain ⟨-, hrs, hfault, -⟩ := hs.canStep hbusy
    exact .inr ⟨s, if_pos hbusy, hbusy, hrs, hfault⟩
  | succ n ih =>
    intro hs hbusy
    obtain ⟨t, hstep⟩ := machineNeverStops s hs
    have hmore (k : Nat) : runLoop (n + 1 + k) s = runLoop (n + k) t := by
      rw [Nat.add_right_comm, runLoop_succ_of_step _ hbusy hstep]
    rw [runLoop_succ_of_step n hbusy hstep]
    simp only [hmore]
    cases hnext : t.busy with
    | true => exact ih t (step_inv hs hstep) hnext
    | false =>
      exact .inl ⟨t, runLoop_of_not_busy n hnext, hnext, (hs.canStep hbusy).stopped_of_not_busy hstep hnext,
        fun k => runLoop_of_not_busy (n + k) hnext⟩

/-! ## The host commands (R218, R220 to R229) -/

/-- Settles O52: the test of BUSY comes before the command is looked at. -/
theorem busyRefusesCommands : Obligations.BusyRefusesCommands := fun _ _ hbusy => if_pos hbusy

/-- Construct looks at the length of its words alone, whatever RS and FAULT hold (R221). -/
theorem command_construct (hidle : s.busy = false) (words : List Word) : command (.construct words) s =
    if words.length ≤ maxAddr + 1 then .done .nothing (s.constructed words) else .refused := by
  rw [command, hidle, if_neg Bool.false_ne_true]

theorem command_construct_of_length_le {words : List Word} (hidle : s.busy = false)
    (hlen : words.length ≤ maxAddr + 1) :
    command (.construct words) s = .done .nothing (s.constructed words) := by
  rw [command_construct hidle, if_pos hlen]

theorem eq_constructed_of_done {words : List Word} (h : command (.construct words) s = .done a t) :
    t = s.constructed words := by
  rw [command_construct (command_cases h).1] at h
  split at h
  · cases h
    rfl
  · cases h

/-- Any other command has its effect where BUSY is 0 and no fault is recorded. -/
theorem command_eq_of_idle {r : CommandResult} (hidle : s.busy = false) (hnone : s.fault = none)
    (hc : command c s = if s.busy then .refused else s.unlessFaulted r) : command c s = r := by
  rw [hc, hidle, if_neg Bool.false_ne_true, State.unlessFaulted, if_pos hnone]

theorem State.pushInput_of_full (hfull : s.config.inCapacity = some s.inQ.length) (v : Word) :
    s.pushInput v = s.raise (.capacityExceeded none .inputQueue) :=
  if_pos ((atCapacity_iff _ _).2 hfull)

theorem State.pushInput_of_room (hroom : s.config.inCapacity ≠ some s.inQ.length) (v : Word) :
    s.pushInput v = { s with inQ := s.inQ ++ [v], rs := if s.rs = .waitingForInput then .running else s.rs } :=
  if_neg (mt (atCapacity_iff _ _).1 hroom)

/-- Settles O46, by whether the queue is full, and whether the core is blocked. -/
theorem pushInputAppends : Obligations.PushInputAppends := by
  intro s v hidle hnone
  rw [command_eq_of_idle hidle hnone rfl]
  split
  · next hfull => rw [State.pushInput_of_full hfull, State.raise_of_no_fault hnone, ← hidle]
  · next hroom =>
    rw [State.pushInput_of_room hroom]
    split
    · rfl
    · rfl

theorem State.startRun_of_halted (hrs : s.rs = .halted) : s.startRun = s.raise .runWhileHalted := by
  rw [State.startRun, hrs]

theorem State.startRun_of_waiting (hrs : s.rs = .waitingForInput) : s.startRun = s := by
  rw [State.startRun, hrs]

theorem State.startRun_of_running (hrs : s.rs = .running) : s.startRun = s.setBusy true := by
  rw [State.startRun, hrs]

/-- Settles O47, by the run state. That Run is done once BUSY is set is the model's choice (notes/assumptions/6.md). -/
theorem runStartsOrReturns : Obligations.RunStartsOrReturns := by
  intro s hidle hnone
  rw [command_eq_of_idle hidle hnone rfl]
  refine ⟨fun hrs => ?_, fun hrs => ?_, fun hrs => ?_⟩
  · rw [State.startRun_of_halted hrs, State.raise_of_no_fault hnone, ← hidle]
  · rw [State.startRun_of_waiting hrs]
  · rw [State.startRun_of_running hrs]
    rfl

/-- Settles O49: the cursor names an element of OUT, or is at its end. -/
theorem outputQueriesAnswer : Obligations.OutputQueriesAnswer := by
  intro s hidle hnone _
  refine ⟨⟨_, command_eq_of_idle hidle hnone rfl, decide_eq_true_iff⟩, fun hdrained => ?_, fun hunread => ?_,
    fun hempty => ?_, fun hlast => ?_⟩
  · have hnext : s.nextOutput = none := List.getElem?_eq_none hdrained.ge
    rw [command_eq_of_idle hidle hnone rfl, State.getOutput, hnext]
  · have hnext : s.nextOutput = some s.outQ[s.outCur] := List.getElem?_eq_getElem hunread
    rw [command_eq_of_idle hidle hnone rfl, State.getOutput, hnext]
  · rw [command_eq_of_idle hidle hnone rfl, hempty, List.getLast?_nil]
  · rw [command_eq_of_idle hidle hnone rfl, List.getLast?_eq_getElem?, List.getElem?_eq_getElem hlast]

/-- Settles O50: the answers are Boolean tests of RS. -/
theorem runStateQueriesAnswer : Obligations.RunStateQueriesAnswer := by
  intro s hidle hnone
  exact ⟨⟨_, command_eq_of_idle hidle hnone rfl, beq_iff_eq⟩,
    ⟨_, command_eq_of_idle hidle hnone rfl, by rw [Bool.or_eq_true, beq_iff_eq, beq_iff_eq]⟩⟩

/-- Settles O51, by the test for an address. -/
theorem peekMemoryReads : Obligations.PeekMemoryReads := by
  intro s b hidle hnone
  rw [command_eq_of_idle hidle hnone rfl]
  refine ⟨fun hlow hhigh => if_pos ((validAddr_iff b).2 ⟨hlow, hhigh⟩), fun hout => if_neg fun hvalid => ?_⟩
  obtain ⟨hlow, hhigh⟩ := (validAddr_iff b).1 hvalid
  omega

/-! ## Halted and faulted cores (R212, R216) -/

/-- Settles O40: no step is enabled in Halted, and only Construct writes Running there. -/
theorem haltedIsTerminal : Obligations.HaltedIsTerminal := by
  intro s hhalt
  have he : s.enabled = false := by simp [State.enabled, hhalt]
  refine ⟨fun t hstep => step_frame_of_not_enabled he hstep, fun c a t hc h => ?_, fun words hidle hlen =>
    ⟨_, command_construct_of_length_le hidle hlen, rfl⟩⟩
  obtain ⟨words, hwords, -⟩ | hrs := (command_effect h).of_halted hhalt
  · exact absurd hwords (hc words)
  · exact hrs

/-- Settles O41: no step is enabled with a fault recorded, and a command that were done would be Construct. -/
theorem faultIsTerminal : Obligations.FaultIsTerminal := by
  intro s f hfault
  have he : s.enabled = false := by simp [State.enabled, hfault]
  refine ⟨fun t hstep => step_frame_of_not_enabled he hstep, fun c hc => ?_, fun words hidle hlen =>
    ⟨_, command_construct_of_length_le hidle hlen, rfl⟩⟩
  cases h : command c s with
  | refused => rfl
  | done a t =>
    have hnone := command_fault_eq_none hc h
    simp [hfault] at hnone

/-! ## The capacities (R208; 20_memory.md R44; 00_scope.md R6) -/

/-- A write with room leaves EXT within its capacity: it makes a new entry only where there are not yet that many. -/
theorem State.HasRoom.length_keys_write_le {d capacity : Nat} (hroom : s.HasRoom d) (hwf : s.mem.wf)
    (hcap : s.config.extCapacity = some capacity) (hle : s.mem.keys.length ≤ capacity) (v : Word) :
    (s.mem.write d v).keys.length ≤ capacity := by
  rw [Memory.length_keys_write _ _ _ hwf]
  split
  · next hnew =>
    obtain ⟨hsize, hkeys⟩ := hnew
    obtain hprim | hold | hfree := hroom
    · omega
    · exact absurd hold hkeys
    · have hne : s.mem.keys.length ≠ capacity := fun heq => hfree (heq ▸ hcap)
      omega
  · exact hle

/-- One more element fits where the sequence is not yet as long as its capacity. -/
theorem length_append_singleton_le {l : List Word} {capacity : Option Nat} {b : Nat} (hroom : capacity ≠ some l.length)
    (hcap : b ∈ capacity) (hle : l.length ≤ b) (v : Word) : (l ++ [v]).length ≤ b := by
  have hne : l.length ≠ b := fun heq => hroom (heq ▸ hcap)
  rw [List.length_append, List.length_singleton]
  omega

theorem commitOf_withinCapacity (hpass : firstFault i s = none) (hwf : s.mem.wf) (hs : s.WithinCapacity) :
    (commitOf i s).WithinCapacity := by
  have ⟨hext, hin, hout⟩ := hs
  cases i with
  | add | multiply | lessThan | equals =>
    obtain ⟨-, hroom, -⟩ := firstOf_aluChecks_eq_none.1 hpass
    exact ⟨fun b hb => hroom.length_keys_write_le hwf hb (hext b hb) _, hin, hout⟩
  | input m1 m2 m3 =>
    by_cases hunread : s.HasInput
    · obtain ⟨-, hroom, -⟩ := (firstFault_input_eq_none_of_hasInput hunread m1 m2 m3).1 hpass
      obtain ⟨v, hv⟩ := hunread.exists_nextInput
      rw [commitOf_input_of_unread hv]
      exact ⟨fun b hb => hroom.length_keys_write_le hwf hb (hext b hb) v, hin, hout⟩
    · rw [commitOf_input_of_no_unread (s.nextInput_eq_none.2 hunread)]
      exact hs
  | output m1 m2 m3 =>
    obtain ⟨-, hroom, -⟩ := (firstFault_output_eq_none s m1 m2 m3).1 hpass
    exact ⟨hext, hin, fun b hb => length_append_singleton_le hroom hb (hout b hb) _⟩
  | jumpIfTrue | jumpIfFalse | relativeBaseOffset | halt => exact hs

theorem step_withinCapacity (hwf : s.mem.wf) (hs : s.WithinCapacity) (h : step s = .next t) : t.WithinCapacity := by
  by_cases hstep : s.CanStep
  · obtain ⟨f, rfl⟩ | ⟨i, -, hpass, rfl⟩ := hstep.step_fault_or_commit h
    · exact hs
    · exact commitOf_withinCapacity hpass hwf hs
  · rw [step_frame_of_not_canStep hstep h]
    exact hs

theorem State.pushInput_withinCapacity (hs : s.WithinCapacity) (v : Word) : (s.pushInput v).WithinCapacity := by
  by_cases hfull : s.config.inCapacity = some s.inQ.length
  · rw [State.pushInput_of_full hfull]
    exact hs
  · rw [State.pushInput_of_room hfull]
    obtain ⟨hext, hin, hout⟩ := hs
    exact ⟨hext, fun b hb => length_append_singleton_le hfull hb (hin b hb) v, hout⟩

theorem State.startRun_withinCapacity (hs : s.WithinCapacity) : s.startRun.WithinCapacity := by
  cases hrs : s.rs with
  | halted =>
    rw [State.startRun_of_halted hrs]
    exact hs
  | waitingForInput =>
    rw [State.startRun_of_waiting hrs]
    exact hs
  | running =>
    rw [State.startRun_of_running hrs]
    exact hs

theorem command_withinCapacity (hs : s.WithinCapacity) (h : command c s = .done a t) : t.WithinCapacity := by
  obtain ⟨-, ⟨words, -, -, -, rfl⟩ | ⟨-, ⟨v, -, -, rfl⟩ | ⟨-, -, rfl⟩ | ⟨-, hout⟩ | ⟨-, rfl⟩⟩⟩ := command_cases h
  · exact ⟨fun _ _ => Nat.zero_le _, fun _ _ => Nat.zero_le _, fun _ _ => Nat.zero_le _⟩
  · exact State.pushInput_withinCapacity hs v
  · exact State.startRun_withinCapacity hs
  · obtain ⟨-, rfl⟩ := (s.getOutput_done t a).1 hout
    split
    · exact hs
    · exact hs
  · exact hs

/-- Settles O37: what grows a store is checked first, by the instruction or by PushInput. -/
theorem capacitiesHold : Obligations.CapacitiesHold :=
  ⟨fun _ _ ⟨_, hwf⟩ hs h => step_withinCapacity hwf hs h, fun _ _ _ _ hs h => command_withinCapacity hs h⟩

/-! ## The run-state transitions (R215) -/

/-- Only a blocked Input and Halt write RS. -/
theorem commitOf_rs (hin : ∀ m1 m2 m3, i = .input m1 m2 m3 → s.HasInput) (hhalt : ∀ m1 m2 m3, i ≠ .halt m1 m2 m3) :
    (commitOf i s).rs = s.rs := by
  cases i with
  | input m1 m2 m3 =>
    obtain ⟨v, hv⟩ := (hin m1 m2 m3 rfl).exists_nextInput
    rw [commitOf_input_of_unread hv]
  | halt m1 m2 m3 => exact absurd rfl (hhalt m1 m2 m3)
  | add | multiply | lessThan | equals | output | jumpIfTrue | jumpIfFalse | relativeBaseOffset => rfl

/-- A taken jump that passes its checks goes to a target that is no negative integer. -/
theorem State.jumpPc_eq_target {m1 m2 : Mode} {taken : Bool} (htaken : taken = true)
    (hpass : firstOf (readChecks s .p1 m1 ++ readChecks s .p2 m2 ++ [jumpCheck s m2 taken]) = none) :
    (s.jumpPc m2 taken : Int) = (s.operand .p2 m2).toInt := by
  subst htaken
  obtain ⟨-, htarget⟩ := firstOf_jumpChecks_eq_none.1 hpass
  exact Int.toNat_of_nonneg htarget

theorem commitOf_pc_of_taken {m1 m2 m3 : Mode} (hpass : firstFault i s = none)
    (htaken : i = .jumpIfTrue m1 m2 m3 ∧ s.operand .p1 m1 ≠ 0 ∨ i = .jumpIfFalse m1 m2 m3 ∧ s.operand .p1 m1 = 0) :
    ((commitOf i s).pc : Int) = (s.operand .p2 m2).toInt := by
  obtain ⟨rfl, hcond⟩ | ⟨rfl, hcond⟩ := htaken
  · exact State.jumpPc_eq_target (decide_eq_true hcond) hpass
  · exact State.jumpPc_eq_target (decide_eq_true hcond) hpass

/-- Whatever neither jumps, nor blocks, nor halts advances by its width (30_encoding.md R82). -/
theorem commitOf_pc_of_not_taken (hin : ∀ m1 m2 m3, i = .input m1 m2 m3 → s.HasInput)
    (hhalt : ∀ m1 m2 m3, i ≠ .halt m1 m2 m3)
    (hnot : ∀ m1 m2 m3, ¬ (i = .jumpIfTrue m1 m2 m3 ∧ s.operand .p1 m1 ≠ 0 ∨
      i = .jumpIfFalse m1 m2 m3 ∧ s.operand .p1 m1 = 0)) :
    (commitOf i s).pc = s.pc + (1 + i.paramCount) := by
  cases i with
  | input m1 m2 m3 =>
    obtain ⟨v, hv⟩ := (hin m1 m2 m3 rfl).exists_nextInput
    rw [commitOf_input_of_unread hv]
    rfl
  | jumpIfTrue m1 m2 m3 =>
    have hcond : ¬ s.operand .p1 m1 ≠ 0 := fun h => hnot m1 m2 m3 (.inl ⟨rfl, h⟩)
    rw [commitOf, decide_eq_false hcond]
    rfl
  | jumpIfFalse m1 m2 m3 =>
    have hcond : ¬ s.operand .p1 m1 = 0 := fun h => hnot m1 m2 m3 (.inr ⟨rfl, h⟩)
    rw [commitOf, decide_eq_false hcond]
    rfl
  | halt m1 m2 m3 => exact absurd rfl (hhalt m1 m2 m3)
  | add | multiply | lessThan | equals | output | relativeBaseOffset => rfl

/-- A step that faults or executes nothing leaves RS and the pc. -/
theorem step_rs_pc_of_no_commit (hstep : step s = .next t) (h : ¬ s.CanStep ∨ t.fault ≠ none) :
    t.rs = s.rs ∧ t.pc = s.pc := by
  by_cases hcan : s.CanStep
  · rw [hcan.step_frame_of_fault hstep (h.resolve_left (not_not.2 hcan))]
    exact ⟨rfl, rfl⟩
  · rw [step_frame_of_not_canStep hcan hstep]
    exact ⟨rfl, rfl⟩

/-- Of the commands, only Construct and PushInput write RS. -/
theorem CommandEffect.rs_eq (h : CommandEffect s c a t) (hc : ∀ words, c ≠ .construct words)
    (hpush : ∀ v, c ≠ .pushInput v) : t.rs = s.rs := by
  cases h with
  | constructed words => exact absurd rfl (hc words)
  | inputPushed v => exact absurd rfl (hpush v)
  | faulted | runStarted | outputRead | unchanged => rfl

/-- PushInput wakes a blocked core where it appends, and writes RS nowhere else. -/
theorem State.pushInput_rs (hnone : s.fault = none) (v : Word) :
    (s.rs = .waitingForInput → (s.pushInput v).fault = none → (s.pushInput v).rs = .running) ∧
      (s.rs ≠ .waitingForInput ∨ (s.pushInput v).fault ≠ none → (s.pushInput v).rs = s.rs) := by
  by_cases hfull : s.config.inCapacity = some s.inQ.length
  · rw [State.pushInput_of_full hfull]
    exact ⟨nofun, fun _ => rfl⟩
  · rw [State.pushInput_of_room hfull]
    exact ⟨fun hwait _ => if_pos hwait, fun h => if_neg (h.resolve_right (not_not.2 hnone))⟩

theorem command_rs_of_not_construct (hc : ∀ words, c ≠ .construct words) (h : command c s = .done a t) :
    ((∃ v, c = .pushInput v) → s.rs = .waitingForInput → t.fault = none → t.rs = .running) ∧
      ((∀ v, c ≠ .pushInput v) ∨ s.rs ≠ .waitingForInput ∨ t.fault ≠ none → t.rs = s.rs) := by
  by_cases hpush : ∃ v, c = .pushInput v
  · obtain ⟨v, rfl⟩ := hpush
    have hnone := command_fault_eq_none hc h
    rw [command_eq_of_idle (command_cases h).1 hnone rfl] at h
    cases h
    obtain ⟨hwakes, hstays⟩ := State.pushInput_rs hnone v
    exact ⟨fun _ => hwakes, fun hor => hstays (hor.resolve_left fun hne => hne v rfl)⟩
  · exact ⟨fun hex => absurd hex hpush, fun _ => (command_effect h).rs_eq hc (not_exists.1 hpush)⟩

/-- Settles O43: the engine's transitions are those of the commits, and the host's those of Construct and PushInput. -/
theorem runStateTransitions : Obligations.RunStateTransitions := by
  refine ⟨fun s t i hcan hdec hpass hstep => ?_, fun _ _ hstep h => step_rs_pc_of_no_commit hstep h,
    fun c a s t h => ⟨?_, fun hc => ?_⟩⟩
  · rw [hcan.step_of_no_fault hdec hpass] at hstep
    cases hstep
    refine ⟨?_, ?_, fun hin hhalt => ⟨?_, fun m1 m2 m3 htaken => commitOf_pc_of_taken hpass htaken,
      fun hnot => commitOf_pc_of_not_taken hin hhalt hnot⟩⟩
    · rintro m1 m2 m3 rfl hin
      rw [commitOf_input_of_no_unread (s.nextInput_eq_none.2 hin)]
      exact ⟨rfl, rfl⟩
    · rintro m1 m2 m3 rfl
      exact ⟨rfl, rfl⟩
    · obtain ⟨-, hrs, -, -⟩ := hcan
      exact (commitOf_rs hin hhalt).trans hrs
  · rintro words rfl
    rw [eq_constructed_of_done h]
    exact ⟨rfl, rfl⟩
  · obtain ⟨hpc, -, -⟩ := (command_effect h).frame hc
    exact ⟨hpc, command_rs_of_not_construct hc h⟩

end Sys2Proof.Machine

/-! Proofs of the statement of spec/70_reset_and_hazards.md: Construct is the reset of the whole state (R250). -/

namespace Sys2Proof.Machine

/-- Settles O45: neither RS nor FAULT is looked at, and every item is as the new core has it (R20, R221). -/
theorem constructResetsEverything : Obligations.ConstructResetsEverything := by
  intro s words hidle hlen
  have hmem := s.constructed_mem words
  exact ⟨s.constructed words, command_construct_of_length_le hidle hlen, s.constructed_pc words, s.constructed_rb words,
    s.constructed_rs words, s.constructed_fault words, s.constructed_busy words, congrArg Memory.size hmem,
    congrArg Memory.prim hmem, congrArg Memory.ext hmem, s.constructed_inQ words, s.constructed_inCur words,
    s.constructed_outQ words, s.constructed_outCur words⟩

end Sys2Proof.Machine

/-! Proof of the frame of the instructions that store nothing (spec/41_io.md, 42_jumps.md,
43_relbase_halt.md). -/

namespace Sys2Proof.Machine

variable {s t : State} {i : Instr}

/-- An instruction ends in the entry of a fault, or in its commit (30_encoding.md R81). -/
theorem exec_raise_or_commitOf (h : exec i s = .next t) : (∃ f, t = s.raise f) ∨ t = commitOf i s := by
  cases hfault : firstFault i s with
  | some f =>
    rw [exec_of_fault hfault] at h
    cases h
    exact .inl ⟨f, rfl⟩
  | none =>
    rw [exec_of_no_fault hfault] at h
    cases h
    exact .inr rfl

/-- Settles O28: a fault writes none of these items, and the commits write OUT and the pc (Output), the pc (the jumps), RB and
the pc (RelativeBaseOffset), and RS (Halt). -/
theorem nonStoringFrame : Obligations.NonStoringFrame := by
  intro m1 m2 m3 i s t hi h
  obtain ⟨f, rfl⟩ | rfl := exec_raise_or_commitOf h
  · exact ⟨rfl, fun _ => rfl, rfl, rfl, rfl, rfl, fun _ => rfl, fun _ => rfl, fun _ => rfl, fun _ => rfl⟩
  · simp only [List.mem_cons, List.not_mem_nil, or_false] at hi
    obtain rfl | rfl | rfl | rfl | rfl := hi
    · exact ⟨rfl, fun _ => rfl, rfl, rfl, rfl, rfl, fun hne => absurd rfl hne, fun _ => rfl, fun _ => rfl, nofun⟩
    · exact ⟨rfl, fun _ => rfl, rfl, rfl, rfl, rfl, fun _ => rfl, fun _ => rfl, fun _ => rfl, nofun⟩
    · exact ⟨rfl, fun _ => rfl, rfl, rfl, rfl, rfl, fun _ => rfl, fun _ => rfl, fun _ => rfl, nofun⟩
    · exact ⟨rfl, fun _ => rfl, rfl, rfl, rfl, rfl, fun _ => rfl, fun hne => absurd rfl hne, fun _ => rfl, nofun⟩
    · exact ⟨rfl, fun _ => rfl, rfl, rfl, rfl, rfl, fun _ => rfl, fun _ => rfl, fun hne => absurd rfl hne, fun _ => rfl⟩

end Sys2Proof.Machine

/-! Proof of the statement of spec/95_test_vectors.md section 2.1: instruction words the spec writes out. -/

namespace Sys2Proof

/-- Settles O1: the first seven words are canonical words of their instructions; 0 and 398 have no opcode of the table, and
-99 is negative; the last three have their one bad mode digit at the named parameter, behind a known opcode. -/
theorem specWordsDecode : Obligations.SpecWordsDecode := by
  obtain ⟨-, -, hbad1⟩ := decodeChecksInOrder 301
  obtain ⟨-, -, hbad2⟩ := decodeChecksInOrder 3001
  obtain ⟨-, -, hbad3⟩ := decodeChecksInOrder 30004
  exact ⟨decode_encode (.add .position .position .position), decode_encode (.multiply .position .immediate .position),
    decode_encode (.input .relative .position .position), decode_encode (.output .immediate .position .position),
    decode_encode (.jumpIfFalse .immediate .immediate .position),
    decode_encode (.relativeBaseOffset .immediate .position .position), decode_encode (.halt .position .position .relative),
    decode_of_operationOf_none rfl, decode_of_operationOf_none rfl, decode_of_neg (by decide),
    hbad1 (by decide) (by decide), hbad2 (by decide) (by decide), hbad3 (by decide) (by decide)⟩

end Sys2Proof
